-- ==== Sys2Proof/Config.lean ====
section
/-! DEFINITION. The parameters the spec leaves to a build (00_scope.md R6). The spec leaves no value
undefined, so there is no free value here: a build is an argument, as R6 says of an OPEN parameter. -/

namespace Sys2Proof.Config

/-- `bitlength(n)`: how many bits it takes to write `n` in binary (00_scope.md R7). R7 does not say whether
0 takes 0 or 1 bits: 0 is a DESIGN CHOICE (log entry 16). It reaches nothing, since the one use is at 255
or more. -/
def bitLength (n : Nat) : Nat :=
  if n = 0 then 0 else Nat.log2 n + 1

/-- The two OPEN parameters of a build (00_scope.md R6, decisions D13 and D14). -/
structure Build where
  /-- PROG_LEN_MAX, the largest program, in cells, that the build accepts. -/
  progLenMax : Nat
  /-- IP_WIDTH, the width in bits of the build's instruction pointer. -/
  ipWidth : Nat
  deriving DecidableEq, Repr

/-- What R6 asks of IP_WIDTH: at least `bitlength(max(PROG_LEN_MAX, 255))` bits. -/
def Build.wf (b : Build) : Bool :=
  decide (bitLength (max b.progLenMax 255) ≤ b.ipWidth)

end Sys2Proof.Config
end

