-- ==== Sys2Proof/Word.lean ====
section
/-! DEFINITION. The bit widths of the machine, the names of its registers, and the meanings an operand
byte can have. -/

namespace Sys2Proof

/-- A register's contents: W = 128 bits, unsigned (10_state.md R12). -/
abbrev Word := BitVec 128

/-- A cell of the program tape: 8 bits (20_memory.md R24). -/
abbrev Byte := BitVec 8

/-- An element of the output register: 3 bits (10_state.md R20). -/
abbrev Digit := BitVec 3

/-- The three registers (10_state.md R12). -/
inductive Reg where
  | a
  | b
  | c
  deriving DecidableEq, Repr

/-- What a combo operand byte names (30_encoding.md R49 to R51). -/
inductive Combo where
  /-- Bytes 0 to 3: that constant (R49). -/
  | constant (k : BitVec 2)
  /-- Bytes 4, 5 and 6: register A, B or C (R49). -/
  | register (r : Reg)
  /-- Bytes 7 (R50) and 8 to 255 (R51): resolving one raises InvalidOperand. The byte is kept for the
  fault record and the encoder. -/
  | invalid (x : Byte)
  deriving DecidableEq, Repr

end Sys2Proof
end

