-- ==== Sys2Proof/Machine/Alu.lean ====
section
/-! DEFINITION. The three data operations of the alu (40_execution.md R66 to R68). -/

namespace Sys2Proof.Machine

/-- `a >> s`: floor(a / 2^s) below the width, 0 from the width on; the amount is never reduced modulo the
width (40_execution.md R66). -/
def shiftRight (a s : Word) : Word :=
  if s.toNat < 128 then BitVec.ofNat 128 (a.toNat / 2 ^ s.toNat) else 0

/-- `a XOR b`, bit by bit over the whole width (40_execution.md R67). -/
def bitXor (a b : Word) : Word :=
  a ^^^ b

/-- `v mod 8`: bits 2 to 0 (40_execution.md R68). -/
def mod8 (v : Word) : Digit :=
  v.extractLsb' 0 3

end Sys2Proof.Machine
end

