-- ==== Sys2Proof/Syntax.lean ====
section
/-! DEFINITION. The instruction set: the eight rows of 30_encoding.md R45 and spec/opcode_table.json. -/

namespace Sys2Proof

/-- An instruction with its operand. A combo operand is held as what its byte names; a literal operand
and the ignored operand of bxc are held as the byte (30_encoding.md R46). -/
inductive Instr where
  /-- Opcode 0: shift A right, result to A (41_shift_divide.md R74). -/
  | adv (x : Combo)
  /-- Opcode 1: XOR B with a literal (42_bitwise.md R78). -/
  | bxl (x : Byte)
  /-- Opcode 2: B becomes a combo value mod 8 (42_bitwise.md R79). -/
  | bst (x : Combo)
  /-- Opcode 3: jump to a literal index if A is not zero (43_control.md R82). -/
  | jnz (x : Byte)
  /-- Opcode 4: XOR B with C, the operand byte ignored (42_bitwise.md R80). -/
  | bxc (x : Byte)
  /-- Opcode 5: append a combo value mod 8 to the output (44_output.md R84). -/
  | out (x : Combo)
  /-- Opcode 6: shift A right, result to B (41_shift_divide.md R75). -/
  | bdv (x : Combo)
  /-- Opcode 7: shift A right, result to C (41_shift_divide.md R76). -/
  | cdv (x : Combo)
  deriving DecidableEq, Repr

end Sys2Proof
end

