-- ==== Sys2Proof/WellFormed.lean ====
section
/-! DEFINITION. Which terms of `Instr` stand for words of the tape. -/

namespace Sys2Proof

/-- An invalid combo operand is a byte of 7 or more; a smaller byte has a meaning (30_encoding.md R49
to R51). -/
def Combo.wf : Combo → Bool
  | .constant _ => true
  | .register _ => true
  | .invalid x => decide (7 ≤ x.toNat)

/-- Every literal and every ignored operand byte is legal (30_encoding.md R46, R48), so an instruction
is well formed when its combo operand is. -/
def Instr.wf : Instr → Bool
  | .adv x => x.wf
  | .bxl _ => true
  | .bst x => x.wf
  | .jnz _ => true
  | .bxc _ => true
  | .out x => x.wf
  | .bdv x => x.wf
  | .cdv x => x.wf

end Sys2Proof
end

