-- ==== Sys2Proof/Decode.lean ====
section
/-! DEFINITION. The instruction_decoder's reading of tape cells, the encoder beside it, and the
assembler notation of 30_encoding.md R55. -/

namespace Sys2Proof

/-- Why cells do not decode. -/
inductive DecodeError where
  /-- There is no cell to read (40_execution.md R58 makes this a halt). -/
  | noCell
  /-- There is one cell and no second (40_execution.md R59). -/
  | oneCell (byte0 : Byte)
  /-- The opcode is 8 or more (30_encoding.md R47). -/
  | invalidOpcode (op x : Byte)
  deriving DecidableEq, Repr

/-- What an operand byte names as a combo operand (30_encoding.md R49 to R51). -/
def Combo.ofByte (x : Byte) : Combo :=
  match x.toNat with
  | 0 => .constant 0
  | 1 => .constant 1
  | 2 => .constant 2
  | 3 => .constant 3
  | 4 => .register .a
  | 5 => .register .b
  | 6 => .register .c
  | _ => .invalid x

/-- The opcode map (30_encoding.md R45); an opcode of 8 or more selects nothing (R47). -/
def decodePair (op x : Byte) : Option Instr :=
  match op.toNat with
  | 0 => some (.adv (Combo.ofByte x))
  | 1 => some (.bxl x)
  | 2 => some (.bst (Combo.ofByte x))
  | 3 => some (.jnz x)
  | 4 => some (.bxc x)
  | 5 => some (.out (Combo.ofByte x))
  | 6 => some (.bdv (Combo.ofByte x))
  | 7 => some (.cdv (Combo.ofByte x))
  | _ => none

/-- Read one instruction from the front of a sequence of cells, opcode first (30_encoding.md R42, R43;
20_memory.md R27), and give the cells after it. -/
def decode : List Byte → Except DecodeError (Instr × List Byte)
  | [] => .error .noCell
  | [b] => .error (.oneCell b)
  | op :: x :: rest =>
    match decodePair op x with
    | some i => .ok (i, rest)
    | none => .error (.invalidOpcode op x)

/-- The byte that names a combo operand. -/
def Combo.toByte : Combo → Byte
  | .constant k => k.setWidth 8
  | .register .a => 4
  | .register .b => 5
  | .register .c => 6
  | .invalid x => x

/-- An instruction's opcode cell (30_encoding.md R45). -/
def Instr.opcode : Instr → Byte
  | .adv _ => 0
  | .bxl _ => 1
  | .bst _ => 2
  | .jnz _ => 3
  | .bxc _ => 4
  | .out _ => 5
  | .bdv _ => 6
  | .cdv _ => 7

/-- An instruction's operand cell. -/
def Instr.operand : Instr → Byte
  | .adv x => x.toByte
  | .bxl x => x
  | .bst x => x.toByte
  | .jnz x => x
  | .bxc x => x
  | .out x => x.toByte
  | .bdv x => x.toByte
  | .cdv x => x.toByte

/-- The two cells of an instruction, opcode first (30_encoding.md R42, R43). -/
def encode (i : Instr) : List Byte :=
  [i.opcode, i.operand]

/-- The opcode cell of the instruction word `iw`: bits 15 to 8 (30_encoding.md R43). Bits at and above
`nbits` count as 0. -/
def tableOpcode (nbits w : Nat) : Byte :=
  BitVec.ofNat 8 (w % 2 ^ nbits / 256)

/-- The operand cell of the instruction word `iw`: bits 7 to 0 (30_encoding.md R43). -/
def tableOperand (nbits w : Nat) : Byte :=
  BitVec.ofNat 8 (w % 2 ^ nbits)

/-- What the decoder reads from the instruction word `w` of spec/opcode_table.json. The word is laid on
the tape as R43 says, its high byte in the lower cell (log entry 7). -/
def decodeTableWord (nbits w : Nat) : Option Instr :=
  match decode [tableOpcode nbits w, tableOperand nbits w] with
  | .ok (i, _) => some i
  | .error _ => none

/-- The mnemonic of an instruction, as the opcode map spells it (30_encoding.md R45). -/
def Instr.mnemonic : Instr → String
  | .adv _ => "adv"
  | .bxl _ => "bxl"
  | .bst _ => "bst"
  | .jnz _ => "jnz"
  | .bxc _ => "bxc"
  | .out _ => "out"
  | .bdv _ => "bdv"
  | .cdv _ => "cdv"

/-- The mnemonic form of one instruction: its mnemonic and its operand byte in decimal
(30_encoding.md R55). -/
def asmLine (i : Instr) : String :=
  i.mnemonic ++ " " ++ toString i.operand.toNat

/-- The opcode a mnemonic stands for (30_encoding.md R45, R55); there is no other mnemonic (R56). -/
def opcodeOfMnemonic (m : String) : Option Byte :=
  if m = "adv" then some 0
  else if m = "bxl" then some 1
  else if m = "bst" then some 2
  else if m = "jnz" then some 3
  else if m = "bxc" then some 4
  else if m = "out" then some 5
  else if m = "bdv" then some 6
  else if m = "cdv" then some 7
  else none

/-- The two cells that a mnemonic line stands for: the opcode and the decimal operand, 0 to 255
(30_encoding.md R55). -/
def assembleLine (m : String) (x : Nat) : Option (List Byte) :=
  match opcodeOfMnemonic m with
  | some op => if x < 256 then some [op, BitVec.ofNat 8 x] else none
  | none => none

/-- The byte list of a program, starting at index 0 (30_encoding.md R55). -/
def assemble : List Instr → List Byte
  | [] => []
  | i :: is => encode i ++ assemble is

end Sys2Proof
end

