-- ==== Sys2Proof/Machine/State.lean ====
section
/-! DEFINITION. Everything the spec gives the machine to hold (10_state.md, 20_memory.md), the reasons a
step can stop, and the state after reset. -/

namespace Sys2Proof.Machine

/-- The FSM's run states (10_state.md R18). -/
inductive RunState where
  /-- The core may take a step. -/
  | running
  /-- The run ended normally (40_execution.md R58). -/
  | halted
  /-- The run ended in a fault (60_exceptions.md R91). -/
  | faulted
  deriving DecidableEq, Repr

/-- The fault causes (60_exceptions.md R86). -/
inductive FaultCause where
  /-- NONE: no fault recorded. -/
  | noFault
  /-- A fetch that finds one cell, not two (R87). -/
  | malformedProgram
  /-- An opcode byte of 8 or more (R88). -/
  | invalidOpcode
  /-- A combo operand byte of 7 or more (R89). -/
  | invalidOperand
  deriving DecidableEq, Repr

/-- The cells of the program tape: (index, byte) pairs, indices strictly rising, no pair that holds the
byte an unlisted cell holds (log entry 3). -/
abbrev Memory := List Host.Cell

/-- The state of the core. -/
structure State where
  /-- Register A (10_state.md R12). -/
  a : Word
  /-- Register B (10_state.md R12). -/
  b : Word
  /-- Register C (10_state.md R12). -/
  c : Word
  /-- The instruction pointer, an index into the tape, without a width (10_state.md R16, R17). -/
  pc : Nat
  /-- The cells of the program tape (20_memory.md R23 to R25). -/
  tape : Memory
  /-- The number of cells of the program tape (20_memory.md R23). -/
  len : Nat
  /-- The output register, the first value emitted first (10_state.md R20, R21). -/
  out : List Digit
  /-- run_state (10_state.md R18). -/
  runState : RunState
  /-- fault_cause (10_state.md R18). -/
  faultCause : FaultCause
  /-- fault_ip (10_state.md R18). -/
  faultIp : Nat
  /-- fault_byte0 (10_state.md R18). -/
  faultByte0 : Byte
  /-- fault_byte1, `none` for NONE (10_state.md R18). -/
  faultByte1 : Option Byte
  deriving DecidableEq, Repr

/-- Why the machine stops with a fault. -/
inductive Fault where
  /-- Raised by `step` in FAULTED, with the fault record. The step that raised the fault entered FAULTED
  and wrote the record (60_exceptions.md R91); from there the core takes no step (40_execution.md R57).
  SAFE: the run is never taken for a successful end (log entry 4). -/
  | runFaulted (cause : FaultCause) (ip : Nat) (byte0 : Byte) (byte1 : Option Byte)
  deriving DecidableEq, Repr

/-- Why the machine, or a launch, has no next state and no fault. -/
inductive Refusal where
  /-- Raised by an arm of `exec` for an instruction without a meaning. SAFE. No arm raises it. -/
  | notModelled (mnemonic : String)
  /-- Raised by `step` in HALTED: the run ended normally and the core takes no step (40_execution.md R57,
  R58). SAFE: nothing is claimed beyond the end (log entry 5). -/
  | runHalted
  /-- Raised by `launch` for an initial register value of 2^128 or more (70_reset_and_hazards.md R102,
  decision D3). SAFE. -/
  | registerOutOfRange
  /-- Raised by `launch` for a program value of 256 or more (70_reset_and_hazards.md R102). SAFE. -/
  | cellOutOfRange
  /-- Raised by `launch` for a program longer than PROG_LEN_MAX (70_reset_and_hazards.md R102). SAFE. -/
  | programTooLong
  deriving DecidableEq, Repr

/-- The machine right after reset with no program launched: `pc` 0, output empty, RUNNING, no fault
recorded (70_reset_and_hazards.md R101). The registers, which the host supplies, are DESIGN CHOICE 0
(log entry 1); the tape, which the host supplies, is DESIGN CHOICE empty (log entry 2). -/
def State.reset : State where
  a := 0
  b := 0
  c := 0
  pc := 0
  tape := []
  len := 0
  out := []
  runState := .running
  faultCause := .noFault
  faultIp := 0
  faultByte0 := 0
  faultByte1 := none

end Sys2Proof.Machine
end

