-- ==== Sys2Proof/Machine/Ops.lean ====
section
/-! DEFINITION. The named operations on the state: the tape, the registers, the instruction pointer, the
output register, the halt, and taking a fault. -/

namespace Sys2Proof.Machine

/-! The program tape (20_memory.md). -/

/-- What a cell below `len` holds when `tape` does not list it (log entry 3). -/
def unlistedByte : Byte := 0

/-- The canonical form: indices strictly rising, no listed cell that holds `unlistedByte`. -/
abbrev Memory.wf (m : Memory) : Prop :=
  m.Pairwise (fun p q => p.1 < q.1) ∧ ∀ p ∈ m, p.2 ≠ unlistedByte

/-- The byte of the cell at index `i`. -/
def tapeByte : Memory → Nat → Byte
  | [], _ => unlistedByte
  | (j, v) :: m, i => if j = i then v else tapeByte m i

/-- The tape with the cell at index `i` holding `v`. No instruction writes the tape (20_memory.md R25);
only a load does. -/
def tapeSet : Memory → Nat → Byte → Memory
  | [], i, v => if v = unlistedByte then [] else [(i, v)]
  | (j, u) :: m, i, v =>
    if i < j then
      if v = unlistedByte then (j, u) :: m else (i, v) :: (j, u) :: m
    else if i = j then
      if v = unlistedByte then m else (i, v) :: m
    else (j, u) :: tapeSet m i v

/-- The tape that holds a sequence of bytes from index `i` on (70_reset_and_hazards.md R101). -/
def tapeOf : Nat → List Byte → Memory
  | _, [] => []
  | i, v :: vs => if v = unlistedByte then tapeOf (i + 1) vs else (i, v) :: tapeOf (i + 1) vs

/-- `MemRead(i, 1)` (00_scope.md R9): the cell at index `i`; an index at or past `len` holds no cell
(20_memory.md R31). -/
def memRead (s : State) (i : Nat) : Option Byte :=
  if i < s.len then some (tapeByte s.tape i) else none

/-- The cells the fetch finds at `pc` and `pc + 1`, lower index first: two, one or none (20_memory.md
R27; 40_execution.md R58, R59, R60). `pc` needs no alignment (20_memory.md R29). -/
def fetchCells (s : State) : List Byte :=
  match memRead s s.pc with
  | none => []
  | some op =>
    match memRead s (s.pc + 1) with
    | none => [op]
    | some x => [op, x]

/-! The register file (10_state.md R12). -/

/-- Read a register. -/
def readReg (r : Reg) (s : State) : Word :=
  match r with
  | .a => s.a
  | .b => s.b
  | .c => s.c

/-- Write one register; the other two keep their values (10_state.md R12). -/
def writeReg (r : Reg) (v : Word) (s : State) : State :=
  match r with
  | .a => { s with a := v }
  | .b => { s with b := v }
  | .c => { s with c := v }

/-! The instruction pointer (10_state.md R16). -/

/-- Set `pc` to an absolute cell index, as a taken jnz does (43_control.md R82). -/
def jumpTo (target : Nat) (s : State) : State :=
  { s with pc := target }

/-- Past the two cells of the instruction (40_execution.md R63). -/
def advance (s : State) : State :=
  { s with pc := s.pc + 2 }

/-! The output register (10_state.md R20). -/

/-- `OutAppend(v)`: append at the end; no append fails (10_state.md R20, R21). -/
def outAppend (v : Digit) (s : State) : State :=
  { s with out := s.out ++ [v] }

/-! The end of a run. -/

/-- The numeric code of a run state (10_state.md R18). -/
def RunState.code : RunState → Nat
  | .running => 0
  | .halted => 1
  | .faulted => 2

/-- The numeric code of a fault cause (60_exceptions.md R86). -/
def FaultCause.code : FaultCause → Nat
  | .noFault => 0
  | .malformedProgram => 1
  | .invalidOpcode => 2
  | .invalidOperand => 3

/-- The normal end: `run_state` becomes HALTED and nothing else changes (40_execution.md R58). -/
def halt (s : State) : State :=
  { s with runState := .halted }

/-- Taking a fault (60_exceptions.md R91): `run_state` and the fault record are written, as one action, and
nothing else; `pc` still names the faulting instruction. There is no return from a fault (R93). -/
def takeFault (cause : FaultCause) (byte0 : Byte) (byte1 : Option Byte) (s : State) : State :=
  { s with
    runState := .faulted
    faultCause := cause
    faultIp := s.pc
    faultByte0 := byte0
    faultByte1 := byte1 }

/-! Placing one instruction from outside. -/

/-- Put two cells at `pc`, make the tape long enough to hold them, and let the core run: what a load
does for one instruction (log entry 6). -/
def placePair (op x : Byte) (s : State) : State :=
  { s with
    tape := tapeSet (tapeSet s.tape s.pc op) (s.pc + 1) x
    len := max s.len (s.pc + 2)
    runState := .running }

end Sys2Proof.Machine
end

