-- ==== Sys2Proof/Machine/Operands.lean ====
section
/-! DEFINITION. Operand resolution (30_encoding.md R46 to R52). -/

namespace Sys2Proof.Machine

/-- `literal(x)`: the byte itself, as a natural number (30_encoding.md R48). -/
def literal (x : Byte) : Nat :=
  x.toNat

/-- `zext_W(literal(x))`: a literal widened with zero bits, to meet a register (30_encoding.md R48). -/
def literalWord (x : Byte) : Word :=
  x.setWidth 128

/-- `combo(x)` against the registers held before the instruction (30_encoding.md R49, 40_execution.md
R62); `none` where resolution raises InvalidOperand (R50, R51). -/
def combo (x : Combo) (s : State) : Option Word :=
  match x with
  | .constant k => some (k.setWidth 128)
  | .register r => some (readReg r s)
  | .invalid _ => none

/-- Run a combo instruction of opcode `op` on its resolved operand. An operand that does not resolve takes
InvalidOperand before anything is written, with the opcode and operand bytes in the record
(40_execution.md R61, 60_exceptions.md R89, R91). -/
def withCombo (op : Byte) (x : Combo) (s : State) (effect : Word → State) :
    Host.Outcome State Fault Refusal :=
  match combo x s with
  | some v => .next (effect v)
  | none => .next (takeFault .invalidOperand op (some x.toByte) s)

end Sys2Proof.Machine
end

