-- ==== Sys2Proof/Machine/Bitwise.lean ====
section
/-! DEFINITION. bxl, bst and bxc (42_bitwise.md). -/

namespace Sys2Proof.Machine

/-- bxl: `B <- B XOR zext_W(x); pc <- pc + 2`. Bits 127 to 8 of B are kept (42_bitwise.md R78,
90_conflicts.md C1). -/
def execBxl (x : Byte) (s : State) : Host.Outcome State Fault Refusal :=
  .next (advance (writeReg .b (bitXor (readReg .b s) (literalWord x)) s))

/-- bst: `v <- combo(x); B <- v mod 8; pc <- pc + 2` (42_bitwise.md R79). -/
def execBst (x : Combo) (s : State) : Host.Outcome State Fault Refusal :=
  withCombo 2 x s fun v => advance (writeReg .b ((mod8 v).setWidth 128) s)

/-- bxc: `B <- B XOR C; pc <- pc + 2`. The operand byte is fetched and never resolved (42_bitwise.md
R80). -/
def execBxc (_x : Byte) (s : State) : Host.Outcome State Fault Refusal :=
  .next (advance (writeReg .b (bitXor (readReg .b s) (readReg .c s)) s))

end Sys2Proof.Machine
end

