-- ==== Sys2Proof/Machine/Flags.lean ====
section
/-! DEFINITION. The machine has no flags and no condition codes, and no instruction writes one
(10_state.md R15). Its one condition is computed from register A. -/

namespace Sys2Proof.Machine

/-- The condition of jnz: A ≠ 0, on all the bits of A (43_control.md R82). -/
def aNonzero (s : State) : Bool :=
  decide (s.a ≠ 0)

end Sys2Proof.Machine
end

