-- ==== Sys2Proof/Machine/Control.lean ====
section
/-! DEFINITION. jnz (43_control.md). -/

namespace Sys2Proof.Machine

/-- jnz: if A ≠ 0 then `pc <- literal(x)` and no advance, else `pc <- pc + 2`. The target is not checked
(43_control.md R82). -/
def execJnz (x : Byte) (s : State) : Host.Outcome State Fault Refusal :=
  if aNonzero s then .next (jumpTo (literal x) s) else .next (advance s)

end Sys2Proof.Machine
end

