-- ==== Sys2Proof/Machine/Output.lean ====
section
/-! DEFINITION. out (44_output.md). -/

namespace Sys2Proof.Machine

/-- out: `v <- combo(x); OutAppend(v mod 8); pc <- pc + 2` (44_output.md R84). -/
def execOut (x : Combo) (s : State) : Host.Outcome State Fault Refusal :=
  withCombo 5 x s fun v => advance (outAppend (mod8 v) s)

end Sys2Proof.Machine
end

