-- ==== Sys2Proof/Machine/ShiftDivide.lean ====
section
/-! DEFINITION. adv, bdv and cdv (41_shift_divide.md). -/

namespace Sys2Proof.Machine

/-- `s <- combo(x); r <- A >> s; pc <- pc + 2`, with both reads from the state before the instruction
(41_shift_divide.md R74 to R76; 40_execution.md R62). -/
def shiftDivide (op : Byte) (r : Reg) (x : Combo) (s : State) : Host.Outcome State Fault Refusal :=
  withCombo op x s fun v => advance (writeReg r (shiftRight (readReg .a s) v) s)

/-- adv (41_shift_divide.md R74). -/
def execAdv (x : Combo) (s : State) : Host.Outcome State Fault Refusal :=
  shiftDivide 0 .a x s

/-- bdv (41_shift_divide.md R75). -/
def execBdv (x : Combo) (s : State) : Host.Outcome State Fault Refusal :=
  shiftDivide 6 .b x s

/-- cdv (41_shift_divide.md R76). -/
def execCdv (x : Combo) (s : State) : Host.Outcome State Fault Refusal :=
  shiftDivide 7 .c x s

end Sys2Proof.Machine
end

