-- ==== Sys2Proof/Machine/Fsm.lean ====
section
/-! DEFINITION. The fetch_decode_execute_fsm's step in RUNNING (40_execution.md R58 to R61, R65). -/

namespace Sys2Proof.Machine

/-- One step in RUNNING: halt where the fetch finds no cell (R58), take MalformedProgram where it finds
one (R59), take InvalidOpcode on an opcode of 8 or more (R60), and otherwise execute the instruction
(R61). The tests stand in the order of 60_exceptions.md R90. -/
def runningStep (s : State) : Host.Outcome State Fault Refusal :=
  match decode (fetchCells s) with
  | .error .noCell => .next (halt s)
  | .error (.oneCell b) => .next (takeFault .malformedProgram b none s)
  | .error (.invalidOpcode op x) => .next (takeFault .invalidOpcode op (some x) s)
  | .ok (i, _) => exec i s

/-- No step from HALTED: the run has ended normally, which is no error (40_execution.md R57, R58; log
entry 5). -/
def haltedStop (_s : State) : Host.Outcome State Fault Refusal :=
  .refused .runHalted

/-- No step from FAULTED: the run has ended in the fault that the record holds (40_execution.md R57,
60_exceptions.md R91; log entry 4). -/
def faultedStop (s : State) : Host.Outcome State Fault Refusal :=
  .fault (.runFaulted s.faultCause s.faultIp s.faultByte0 s.faultByte1)

end Sys2Proof.Machine
end

