-- ==== Sys2Proof/Machine/Step.lean ====
section
/-! DEFINITION. One step of the core (40_execution.md R57), and the placing of one instruction where the
next step fetches. -/

namespace Sys2Proof.Machine

/-- One step: possible in RUNNING only (40_execution.md R57). -/
def step (s : State) : Host.Outcome State Fault Refusal :=
  match s.runState with
  | .running => runningStep s
  | .halted => haltedStop s
  | .faulted => faultedStop s

/-- `s` with the instruction word `w` of spec/opcode_table.json on the tape at `pc`, so that the next step
runs it (log entries 6 and 7). -/
def State.withFetchWord (s : State) (nbits w : Nat) : State :=
  placePair (tableOpcode nbits w) (tableOperand nbits w) s

end Sys2Proof.Machine
end

