-- ==== Sys2Proof/Machine/Launch.lean ====
section
/-! DEFINITION. What the host does and sees (70_reset_and_hazards.md R104): it launches a run, and reads
the end of it. -/

namespace Sys2Proof.Machine

/-- The launch's one action (70_reset_and_hazards.md R101): every piece of state gets a value, so nothing
survives from an earlier run (R103). -/
def launched (program : List Byte) (a0 b0 c0 : Word) : State where
  a := a0
  b := b0
  c := c0
  pc := 0
  tape := tapeOf 0 program
  len := program.length
  out := []
  runState := .running
  faultCause := .noFault
  faultIp := 0
  faultByte0 := 0
  faultByte1 := none

/-- The launch of a run on a build. Where the host does not meet the premises (70_reset_and_hazards.md
R102), the launch is refused (decision D3; log entry 8). -/
def launch (build : Config.Build) (program : List Nat) (a0 b0 c0 : Nat) :
    Host.Outcome State Fault Refusal :=
  if ¬ (a0 < 2 ^ 128 ∧ b0 < 2 ^ 128 ∧ c0 < 2 ^ 128) then .refused .registerOutOfRange
  else if ¬ program.all (· < 256) then .refused .cellOutOfRange
  else if build.progLenMax < program.length then .refused .programTooLong
  else
    .next (launched (program.map (BitVec.ofNat 8)) (BitVec.ofNat 128 a0) (BitVec.ofNat 128 b0)
      (BitVec.ofNat 128 c0))

/-- The result of a run: the output sequence in emission order, once the run has HALTED (10_state.md R22,
44_output.md R85). A run that is RUNNING or FAULTED has no result (40_execution.md R70). -/
def runResult (s : State) : Option (List Nat) :=
  match s.runState with
  | .halted => some (s.out.map BitVec.toNat)
  | _ => none

/-- The fault record `(fault_cause, fault_ip, fault_byte0, fault_byte1)`, which the host reads after a run
that FAULTED (10_state.md R22); it means something only there (R18). -/
def faultReport (s : State) : Option (FaultCause × Nat × Byte × Option Byte) :=
  match s.runState with
  | .faulted => some (s.faultCause, s.faultIp, s.faultByte0, s.faultByte1)
  | _ => none

/-- A, B and C, which the host may read once the run has ended, in either way (10_state.md R22,
70_reset_and_hazards.md R104). -/
def finalRegisters (s : State) : Option (Nat × Nat × Nat) :=
  match s.runState with
  | .running => none
  | _ => some (s.a.toNat, s.b.toNat, s.c.toNat)

/-- The output emitted before a fault, which the host may read after a run that FAULTED and which is not
its result (10_state.md R22, 60_exceptions.md R91). -/
def outputBeforeFault (s : State) : Option (List Nat) :=
  match s.runState with
  | .faulted => some (s.out.map BitVec.toNat)
  | _ => none

end Sys2Proof.Machine
end

