-- ==== Sys2Proof/Machine/Pseudocode.lean ====
section
/-! DEFINITION. The step block of 40_execution.md R65 written over natural numbers without a width, for
claims that the machine agrees with it: the "arbitrary-precision integers" of 10_state.md R14. It is not
the model; `step` is. -/

namespace Sys2Proof.Machine

/-- How a run stands, with the fault record where there is one (10_state.md R18). -/
inductive NatStatus where
  | running
  | halted
  | faulted (cause : FaultCause) (ip byte0 : Nat) (byte1 : Option Nat)
  deriving DecidableEq, Repr

/-- The core over unbounded naturals. -/
structure NatCore where
  a : Nat
  b : Nat
  c : Nat
  pc : Nat
  out : List Nat
  status : NatStatus
  deriving DecidableEq, Repr

/-- `combo(x)` of 30_encoding.md R49; `none` where it raises. -/
def NatCore.combo (m : NatCore) (x : Nat) : Option Nat :=
  if x ≤ 3 then some x
  else if x = 4 then some m.a
  else if x = 5 then some m.b
  else if x = 6 then some m.c
  else none

/-- The `case op of` of R65, then `if not taken: pc <- pc + 2`; `none` where `combo(x)` raises. -/
def NatCore.execute (m : NatCore) (op x : Nat) : Option NatCore :=
  match op with
  | 0 => (m.combo x).map fun s => { m with a := m.a / 2 ^ s, pc := m.pc + 2 }
  | 1 => some { m with b := m.b ^^^ x, pc := m.pc + 2 }
  | 2 => (m.combo x).map fun v => { m with b := v % 8, pc := m.pc + 2 }
  | 3 => if m.a ≠ 0 then some { m with pc := x } else some { m with pc := m.pc + 2 }
  | 4 => some { m with b := m.b ^^^ m.c, pc := m.pc + 2 }
  | 5 => (m.combo x).map fun v => { m with out := m.out ++ [v % 8], pc := m.pc + 2 }
  | 6 => (m.combo x).map fun s => { m with b := m.a / 2 ^ s, pc := m.pc + 2 }
  | 7 => (m.combo x).map fun s => { m with c := m.a / 2 ^ s, pc := m.pc + 2 }
  | _ => none

/-- `step()` of R65 on a tape whose cell at `i` is `cell i`, of `len` cells; `none` where
`require run_state = RUNNING` does not hold. -/
def NatCore.step (cell : Nat → Nat) (len : Nat) (m : NatCore) : Option NatCore :=
  match m.status with
  | .running =>
    if m.pc ≥ len then some { m with status := .halted }
    else if m.pc + 1 = len then
      some { m with status := .faulted .malformedProgram m.pc (cell m.pc) none }
    else if cell m.pc ≥ 8 then
      some { m with status := .faulted .invalidOpcode m.pc (cell m.pc) (some (cell (m.pc + 1))) }
    else
      match m.execute (cell m.pc) (cell (m.pc + 1)) with
      | some m' => some m'
      | none =>
        some { m with status := .faulted .invalidOperand m.pc (cell m.pc) (some (cell (m.pc + 1))) }
  | _ => none

/-- What R65 sees of a state: the registers, `pc`, the output and the run state as naturals. -/
def State.toNatCore (s : State) : NatCore where
  a := s.a.toNat
  b := s.b.toNat
  c := s.c.toNat
  pc := s.pc
  out := s.out.map BitVec.toNat
  status :=
    match s.runState with
    | .running => .running
    | .halted => .halted
    | .faulted =>
      .faulted s.faultCause s.faultIp s.faultByte0.toNat (s.faultByte1.map BitVec.toNat)

/-- The tape of a state as R65 reads it: the cell at `i` as a natural number. -/
def State.natCell (s : State) (i : Nat) : Nat :=
  ((memRead s i).getD 0).toNat

end Sys2Proof.Machine
end

