-- ==== Sys2Proof/Safety.lean ====
section
/-! DEFINITION. What claims are stated in: the invariant of a run, and what a good end is. -/

namespace Sys2Proof.Machine

/-- The program tape lists no cell at or past `len` (20_memory.md R23, R31) and is in its canonical form,
which is the model's own way to write a tape down (DESIGN CHOICE, log entry 3). -/
def State.tapeOk (s : State) : Prop :=
  s.tape.wf ∧ ∀ p ∈ s.tape, p.1 < s.len

/-- The fault record holds what 10_state.md R18 and 60_exceptions.md R86 to R89 say of it: its reset values
unless FAULTED, and in FAULTED a cause that the bytes at the faulting `pc` bear out. -/
def State.recordOk (s : State) : Prop :=
  match s.runState with
  | .faulted =>
    s.faultIp = s.pc ∧ memRead s s.pc = some s.faultByte0 ∧ s.faultByte1 = memRead s (s.pc + 1) ∧
      match s.faultCause with
      | .noFault => False
      | .malformedProgram => s.pc + 1 = s.len
      | .invalidOpcode => s.pc + 1 < s.len ∧ 8 ≤ s.faultByte0.toNat
      | .invalidOperand =>
        s.pc + 1 < s.len ∧ s.faultByte0.toNat ∈ [0, 2, 5, 6, 7] ∧
          ∃ x, s.faultByte1 = some x ∧ 7 ≤ x.toNat
  | _ => s.faultCause = .noFault ∧ s.faultIp = 0 ∧ s.faultByte0 = 0 ∧ s.faultByte1 = none

/-- What holds at every step boundary of a run. -/
structure State.Inv (s : State) : Prop where
  /-- The tape is a program of `len` cells (20_memory.md R23), in the model's canonical form (log
  entry 3). -/
  tapeOk : s.tapeOk
  /-- `pc` is at most max(len, 255) (10_state.md R17, 40_execution.md R73). -/
  pcBound : s.pc ≤ max s.len 255
  /-- A halted run stands at or past the end of the tape (40_execution.md R58). -/
  haltedPastEnd : s.runState = .halted → s.len ≤ s.pc
  /-- The fault record is right (10_state.md R18). -/
  recordOk : s.recordOk

/-- The run that starts in `s` reaches `t` in `n` steps. -/
def State.reaches (s : State) (n : Nat) (t : State) : Prop :=
  Host.Core.run core n s = .next t

/-- The next step of `s` executes an out instruction: the cells at `pc` are opcode 5 and an operand that
resolves (44_output.md R84). -/
def State.executesOut (s : State) : Bool :=
  match s.runState, fetchCells s with
  | .running, [op, x] => op == 5 && decide (x.toNat < 7)
  | _, _ => false

/-- How many of the first `n` steps of the run that starts in `s` execute an out instruction. -/
def State.outSteps : Nat → State → Nat
  | 0, _ => 0
  | n + 1, s =>
    s.executesOut.toNat +
      match step s with
      | .next t => State.outSteps n t
      | _ => 0

/-- The run state and the fault record are the same in both. -/
def State.sameStatus (s t : State) : Prop :=
  t.runState = s.runState ∧ t.faultCause = s.faultCause ∧ t.faultIp = s.faultIp ∧
    t.faultByte0 = s.faultByte0 ∧ t.faultByte1 = s.faultByte1

/-- The program tape reads the same in both: as long, and the same byte at every index. -/
def State.sameTape (s t : State) : Prop :=
  t.len = s.len ∧ ∀ i, memRead t i = memRead s i

/-- The run that starts in `s` never takes a fault. -/
def State.safe (s : State) : Prop :=
  ∀ n t, s.reaches n t → t.runState ≠ .faulted

end Sys2Proof.Machine
end

