-- ==== Sys2Proof/Certificates/Slice0/Obligations.lean ====
section
/-! DEFINITION. The statements for the provers, from the numbered rules of spec/. -/

open Sys2Proof Sys2Proof.Machine

/-! Encoding (30_encoding.md). -/

/-- Words of every family, written out bit by bit from the opcode map (30_encoding.md R43, R45): each
decodes to the instruction it stands for, and an opcode of 8 to none. -/
def Obligations.SpecWordsDecode : Prop :=
  decode [0b00000000, 0b00000001] = .ok (.adv (.constant 1), []) ∧
  decode [0b00000001, 0b11001000] = .ok (.bxl 200, []) ∧
  decode [0b00000010, 0b00000110] = .ok (.bst (.register .c), []) ∧
  decode [0b00000011, 0b11111111] = .ok (.jnz 255, []) ∧
  decode [0b00000100, 0b00000111] = .ok (.bxc 7, []) ∧
  decode [0b00000101, 0b00000100] = .ok (.out (.register .a), []) ∧
  decode [0b00000110, 0b00000101] = .ok (.bdv (.register .b), []) ∧
  decode [0b00000111, 0b00001000] = .ok (.cdv (.invalid 8), []) ∧
  decode [0b00001000, 0b00000111] = .error (.invalidOpcode 8 7)

/-- The decoder is total on every pair of cells, with one verdict each (30_encoding.md R53, which the spec
marks as derived): an opcode of 8 or more is InvalidOpcode whatever the operand; any other pair is one
well-formed instruction, the only one that encodes to it. -/
def Obligations.EveryPairHasOneVerdict : Prop :=
  ∀ op x : Byte,
    (8 ≤ op.toNat → decode [op, x] = .error (.invalidOpcode op x)) ∧
    (op.toNat < 8 → ∃ i, decode [op, x] = .ok (i, []) ∧ i.wf = true ∧ encode i = [op, x] ∧
      ∀ j, j.wf = true → encode j = [op, x] → j = i)

/-- Decoding an encoded well-formed instruction gives it back, with every operand value, and leaves the
cells after it (30_encoding.md R42, R43, R45). -/
def Obligations.DecodeEncodeRoundTrip : Prop :=
  ∀ (i : Instr) (rest : List Byte), i.wf = true → decode (encode i ++ rest) = .ok (i, rest)

/-- The byte list of a program holds its `k`-th instruction at cell `2 * k` (30_encoding.md R42, R55): the
decoder reads it there. -/
def Obligations.AssembledProgramReadsBack : Prop :=
  ∀ (is : List Instr) (k : Nat) (i : Instr), (∀ j ∈ is, j.wf = true) → is[k]? = some i →
    ∃ rest, decode ((assemble is).drop (2 * k)) = .ok (i, rest)

/-- The instruction word `iw` holds the opcode cell in bits 15 to 8 and the operand cell in bits 7 to 0
(30_encoding.md R43), and a word placed at `pc` is the one the next step executes (the placing is the
model's own: log entries 6 and 7; so is the canonical form the tape is assumed to have: log entry 3). -/
def Obligations.PlacedWordIsExecuted : Prop :=
  ∀ (s : State) (w : Nat) (i : Instr), s.tape.wf → w < 2 ^ 16 → decodeTableWord 16 w = some i →
    i.opcode.toNat = w / 256 ∧ i.operand.toNat = w % 256 ∧
      step (s.withFetchWord 16 w) = exec i (s.withFetchWord 16 w)

/-! Operand resolution (30_encoding.md). -/

/-- The combo table, byte by byte (30_encoding.md R49): 0 to 3 the constant, 4 A, 5 B, 6 C, and 7 to 255
raise InvalidOperand whatever the instruction would have done (8 to 255 by the spec's decision D5). -/
def Obligations.ComboTable : Prop :=
  ∀ (s : State) (x : Byte),
    (x.toNat ≤ 3 → ∃ v, combo (Combo.ofByte x) s = some v ∧ v.toNat = x.toNat) ∧
    (x.toNat = 4 → combo (Combo.ofByte x) s = some s.a) ∧
    (x.toNat = 5 → combo (Combo.ofByte x) s = some s.b) ∧
    (x.toNat = 6 → combo (Combo.ofByte x) s = some s.c) ∧
    (7 ≤ x.toNat → combo (Combo.ofByte x) s = none ∧
      ∀ op effect, withCombo op (Combo.ofByte x) s effect =
        .next { s with
          runState := .faulted, faultCause := .invalidOperand, faultIp := s.pc, faultByte0 := op
          faultByte1 := some x })

/-- InvalidOperand is raised in adv, bst, out, bdv and cdv, with `pc`, the opcode and the operand in the
record, and in no other instruction (60_exceptions.md R89). Bytes 8 to 255 fault by the spec's decision
D5. -/
def Obligations.InvalidOperandRecord : Prop :=
  ∀ (s : State) (op x : Byte) (i : Instr), decodePair op x = some i → 7 ≤ x.toNat →
    (op.toNat ∈ [0, 2, 5, 6, 7] →
      exec i s = .next { s with
        runState := .faulted, faultCause := .invalidOperand, faultIp := s.pc, faultByte0 := op
        faultByte1 := some x }) ∧
    (op.toNat ∈ [1, 3, 4] → ∃ t, exec i s = .next t ∧ s.sameStatus t)

/-! The alu (40_execution.md). -/

/-- The two lines of the right shift (40_execution.md R66): floor(a / 2^s) below the width, 0 from the
width on; a shift by 0 returns `a`. -/
def Obligations.RightShiftSaturates : Prop :=
  ∀ a s : Word,
    (s.toNat < 128 → (shiftRight a s).toNat = a.toNat / 2 ^ s.toNat) ∧
    (128 ≤ s.toNat → (shiftRight a s).toNat = 0) ∧
    shiftRight a 0 = a

/-- XOR bit by bit, with its laws (40_execution.md R67). -/
def Obligations.XorIsBitwise : Prop :=
  ∀ a b c : Word,
    (∀ i, i < 128 → (bitXor a b).getLsbD i = (a.getLsbD i != b.getLsbD i)) ∧
    bitXor a b = bitXor b a ∧ bitXor (bitXor a b) c = bitXor a (bitXor b c) ∧
    bitXor a a = 0 ∧ bitXor a 0 = a

/-- Reduction mod 8 is the remainder, and the low three bits (40_execution.md R68). -/
def Obligations.ModEightIsLowBits : Prop :=
  ∀ v : Word, (mod8 v).toNat = v.toNat % 8 ∧ ∀ i, i < 3 → (mod8 v).getLsbD i = v.getLsbD i

/-- The laws of the shift family (41_shift_divide.md R77 (a) to (c), which the spec marks as derived): the
result is at most A, is A exactly when the amount or A is 0, and two shifts in a row shift by the sum;
by the single formula floor(a / 2^s) for every amount. -/
def Obligations.ShiftLaws : Prop :=
  ∀ a s s' : Word,
    (shiftRight a s).toNat = a.toNat / 2 ^ s.toNat ∧
    (shiftRight a s).toNat ≤ a.toNat ∧
    (shiftRight a s = a ↔ s = 0 ∨ a = 0) ∧
    (shiftRight (shiftRight a s) s').toNat = a.toNat / 2 ^ (s.toNat + s'.toNat)

/-! The instructions (41_shift_divide.md to 44_output.md). -/

/-- adv, whole (41_shift_divide.md R74): its encoding; A becomes A >> combo(x) and `pc` advances, nothing
else changing, for every operand that resolves; InvalidOperand from 7 on, A and `pc` left; the corner
cases; the example. -/
def Obligations.AdvShiftsIntoA : Prop :=
  ∀ (s : State) (x : Byte),
    decodePair 0x00 x = some (.adv (Combo.ofByte x)) ∧
    (∀ v, combo (Combo.ofByte x) s = some v →
      ∃ r : Word, exec (.adv (Combo.ofByte x)) s = .next { s with a := r, pc := s.pc + 2 } ∧
        r.toNat = s.a.toNat / 2 ^ v.toNat ∧ (128 ≤ v.toNat → r = 0) ∧ (s.a = 0 → r = 0)) ∧
    (7 ≤ x.toNat →
      ∃ t, exec (.adv (Combo.ofByte x)) s = .next t ∧ t.runState = .faulted ∧
        t.faultCause = .invalidOperand ∧ t.a = s.a ∧ t.pc = s.pc) ∧
    (x.toNat = 0 → exec (.adv (Combo.ofByte x)) s = .next { s with pc := s.pc + 2 }) ∧
    (x.toNat = 4 → exec (.adv (Combo.ofByte x)) s = .next { s with a := 0, pc := s.pc + 2 }) ∧
    (x.toNat = 1 → s.a = 2024 →
      exec (.adv (Combo.ofByte x)) s = .next { s with a := 1012, pc := s.pc + 2 })

/-- bdv, whole (41_shift_divide.md R75): its encoding; B becomes A >> combo(x), A not written; the fault;
the corner cases (combo 0 copies A, x = 5 shifts by the old B); the example. -/
def Obligations.BdvShiftsIntoB : Prop :=
  ∀ (s : State) (x : Byte),
    decodePair 0x06 x = some (.bdv (Combo.ofByte x)) ∧
    (∀ v, combo (Combo.ofByte x) s = some v →
      ∃ r : Word, exec (.bdv (Combo.ofByte x)) s = .next { s with b := r, pc := s.pc + 2 } ∧
        r.toNat = s.a.toNat / 2 ^ v.toNat ∧ (128 ≤ v.toNat → r = 0)) ∧
    (7 ≤ x.toNat →
      ∃ t, exec (.bdv (Combo.ofByte x)) s = .next t ∧ t.runState = .faulted ∧
        t.faultCause = .invalidOperand ∧ t.b = s.b ∧ t.pc = s.pc) ∧
    (x.toNat = 0 → exec (.bdv (Combo.ofByte x)) s = .next { s with b := s.a, pc := s.pc + 2 }) ∧
    (x.toNat = 5 →
      ∃ r : Word, exec (.bdv (Combo.ofByte x)) s = .next { s with b := r, pc := s.pc + 2 } ∧
        r.toNat = s.a.toNat / 2 ^ s.b.toNat) ∧
    (x.toNat = 5 → s.a = 64 → s.b = 3 →
      exec (.bdv (Combo.ofByte x)) s = .next { s with b := 8, pc := s.pc + 2 })

/-- cdv, whole (41_shift_divide.md R76): its encoding; C becomes A >> combo(x), A not written; the fault,
for operand 7 too; the corner cases (combo 0 copies A, x = 6 shifts by the old C); the example. -/
def Obligations.CdvShiftsIntoC : Prop :=
  ∀ (s : State) (x : Byte),
    decodePair 0x07 x = some (.cdv (Combo.ofByte x)) ∧
    (∀ v, combo (Combo.ofByte x) s = some v →
      ∃ r : Word, exec (.cdv (Combo.ofByte x)) s = .next { s with c := r, pc := s.pc + 2 } ∧
        r.toNat = s.a.toNat / 2 ^ v.toNat ∧ (128 ≤ v.toNat → r = 0)) ∧
    (7 ≤ x.toNat →
      ∃ t, exec (.cdv (Combo.ofByte x)) s = .next t ∧ t.runState = .faulted ∧
        t.faultCause = .invalidOperand ∧ t.c = s.c ∧ t.pc = s.pc) ∧
    (x.toNat = 0 → exec (.cdv (Combo.ofByte x)) s = .next { s with c := s.a, pc := s.pc + 2 }) ∧
    (x.toNat = 6 →
      ∃ r : Word, exec (.cdv (Combo.ofByte x)) s = .next { s with c := r, pc := s.pc + 2 } ∧
        r.toNat = s.a.toNat / 2 ^ s.c.toNat) ∧
    (x.toNat = 6 → s.a = 10 → s.c = 1 →
      exec (.cdv (Combo.ofByte x)) s = .next { s with c := 5, pc := s.pc + 2 })

/-- bxl, whole (42_bitwise.md R78, with the spec's decision D4 that B is not truncated): its encoding; for
every operand byte B becomes B XOR x, bits 127 to 8 kept; operand 0 leaves B; twice restores B; the
corner case and the example. -/
def Obligations.BxlXorsLiteral : Prop :=
  ∀ (s : State) (x : Byte),
    decodePair 0x01 x = some (.bxl x) ∧
    (∃ r : Word, exec (.bxl x) s = .next { s with b := r, pc := s.pc + 2 } ∧
      r.toNat = s.b.toNat ^^^ x.toNat ∧
      (∀ i, 8 ≤ i → r.getLsbD i = s.b.getLsbD i) ∧
      (x.toNat = 0 → r = s.b) ∧
      exec (.bxl x) { s with b := r, pc := s.pc + 2 } = .next { s with pc := s.pc + 4 }) ∧
    (x.toNat = 3 → s.b.toNat = 2 ^ 100 + 5 →
      ∃ t, exec (.bxl x) s = .next t ∧ t.b.toNat = 2 ^ 100 + 6) ∧
    (x.toNat = 7 → s.b.toNat = 29 → ∃ t, exec (.bxl x) s = .next t ∧ t.b.toNat = 26)

/-- bst, whole (42_bitwise.md R79): its encoding; B becomes combo(x) mod 8, so its bits 127 to 3 are 0; the
fault; the corner cases; the example. -/
def Obligations.BstTakesModEight : Prop :=
  ∀ (s : State) (x : Byte),
    decodePair 0x02 x = some (.bst (Combo.ofByte x)) ∧
    (∀ v, combo (Combo.ofByte x) s = some v →
      ∃ r : Word, exec (.bst (Combo.ofByte x)) s = .next { s with b := r, pc := s.pc + 2 } ∧
        r.toNat = v.toNat % 8 ∧ ∀ i, 3 ≤ i → r.getLsbD i = false) ∧
    (7 ≤ x.toNat →
      ∃ t, exec (.bst (Combo.ofByte x)) s = .next t ∧ t.runState = .faulted ∧
        t.faultCause = .invalidOperand ∧ t.b = s.b ∧ t.pc = s.pc) ∧
    (x.toNat ≤ 3 → ∃ t, exec (.bst (Combo.ofByte x)) s = .next t ∧ t.b.toNat = x.toNat) ∧
    (x.toNat = 5 → ∃ t, exec (.bst (Combo.ofByte x)) s = .next t ∧ t.b.toNat = s.b.toNat % 8) ∧
    (x.toNat = 4 →
      ∃ t, exec (.bst (Combo.ofByte x)) s = .next t ∧ t.b.toNat = s.a.toNat % 8 ∧ t.a = s.a) ∧
    (x.toNat = 6 → s.c.toNat = 9 → ∃ t, exec (.bst (Combo.ofByte x)) s = .next t ∧ t.b.toNat = 1)

/-- bxc, whole (42_bitwise.md R80): for every operand byte it is the same instruction, and B becomes
B XOR C over all bits, C not written; B = C gives 0, C = 0 leaves B, twice restores B; the example. -/
def Obligations.BxcXorsRegisters : Prop :=
  ∀ (s : State) (x : Byte),
    decodePair 0x04 x = some (.bxc x) ∧
    (∃ r : Word, exec (.bxc x) s = .next { s with b := r, pc := s.pc + 2 } ∧
      (∀ i, i < 128 → r.getLsbD i = (s.b.getLsbD i != s.c.getLsbD i)) ∧
      (s.b = s.c → r = 0) ∧ (s.c = 0 → r = s.b) ∧
      exec (.bxc x) { s with b := r, pc := s.pc + 2 } = .next { s with pc := s.pc + 4 }) ∧
    (s.b.toNat = 2024 → s.c.toNat = 43690 →
      ∃ t, exec (.bxc x) s = .next t ∧ t.b.toNat = 44354)

/-- jnz, whole (43_control.md R82, odd targets by the spec's decision D6): its encoding; taken for A ≠ 0,
to the literal, with no advance; else `pc + 2`; nothing else changes. A target past the end makes the next
step halt, one at the last cell makes it take MalformedProgram, any other, odd or even, is fetched there.
A jump to itself leaves the state as it was. The example. -/
def Obligations.JnzJumps : Prop :=
  ∀ (s : State) (x : Byte),
    decodePair 0x03 x = some (.jnz x) ∧
    (s.a ≠ 0 → exec (.jnz x) s = .next { s with pc := x.toNat }) ∧
    (s.a = 0 → exec (.jnz x) s = .next { s with pc := s.pc + 2 }) ∧
    (∀ t, s.a ≠ 0 → s.runState = .running → exec (.jnz x) s = .next t →
      (t.len ≤ x.toNat → step t = .next { t with runState := .halted }) ∧
      (x.toNat + 1 = t.len → ∃ u, step t = .next u ∧ u.runState = .faulted ∧
        u.faultCause = .malformedProgram) ∧
      (x.toNat + 1 < t.len → ∃ op y, fetchCells t = [op, y] ∧ memRead t x.toNat = some op ∧
        memRead t (x.toNat + 1) = some y)) ∧
    (s.a ≠ 0 → x.toNat = s.pc → exec (.jnz x) s = .next s) ∧
    (s.pc = 4 → x.toNat = 0 → ∃ t, exec (.jnz x) s = .next t ∧
      (s.a.toNat = 1 → t.pc = 0) ∧ (s.a.toNat = 0 → t.pc = 6))

/-- out, whole (44_output.md R84): its encoding; combo(x) mod 8 is appended at the end, no register
written; the fault, with nothing appended; the corner cases; the example's three appends. -/
def Obligations.OutAppendsModEight : Prop :=
  ∀ (s : State) (x : Byte),
    decodePair 0x05 x = some (.out (Combo.ofByte x)) ∧
    (∀ v, combo (Combo.ofByte x) s = some v →
      ∃ d : Digit, exec (.out (Combo.ofByte x)) s =
          .next { s with out := s.out ++ [d], pc := s.pc + 2 } ∧ d.toNat = v.toNat % 8) ∧
    (7 ≤ x.toNat →
      ∃ t, exec (.out (Combo.ofByte x)) s = .next t ∧ t.runState = .faulted ∧
        t.faultCause = .invalidOperand ∧ t.out = s.out ∧ t.pc = s.pc) ∧
    (x.toNat ≤ 3 → ∃ t, exec (.out (Combo.ofByte x)) s = .next t ∧
      t.out.map BitVec.toNat = s.out.map BitVec.toNat ++ [x.toNat]) ∧
    (x.toNat = 5 → s.b.toNat = 2 ^ 128 - 1 →
      exec (.out (Combo.ofByte x)) s = .next { s with out := s.out ++ [7], pc := s.pc + 2 }) ∧
    (x.toNat = 4 → s.a.toNat = 10 →
      exec (.out (Combo.ofByte x)) s = .next { s with out := s.out ++ [2], pc := s.pc + 2 })

/-- Every word that 30_encoding.md R53 counts as executable completes with its own effect, whatever the
state: no fault, `pc` advanced or, for a taken jnz, at the literal (opcodes 1, 3 and 4 with any operand;
0, 2, 5, 6 and 7 with an operand below 7). -/
def Obligations.ExecutableWordsComplete : Prop :=
  ∀ (s : State) (op x : Byte), op.toNat < 8 → (op.toNat ∈ [1, 3, 4] ∨ x.toNat < 7) →
    ∃ i t, decodePair op x = some i ∧ exec i s = .next t ∧ s.sameStatus t ∧
      t.pc = if op.toNat = 3 ∧ s.a ≠ 0 then x.toNat else s.pc + 2

/-! Frames (10_state.md R13, 40_execution.md R64, 60_exceptions.md R91). -/

/-- The frame of the instructions with a combo operand (adv, bst, out, bdv, cdv), which store to no memory:
each leaves every register but its own, and the output unless it is out; the tape reads as before at every
index; the run state and the record are as before where the operand resolves, and where it does not the
registers, `pc` and the output are. -/
def Obligations.ComboInstructionFrame : Prop :=
  ∀ (s t : State) (x : Combo),
    (exec (.adv x) s = .next t → t.b = s.b ∧ t.c = s.c ∧ t.out = s.out) ∧
    (exec (.bst x) s = .next t → t.a = s.a ∧ t.c = s.c ∧ t.out = s.out) ∧
    (exec (.out x) s = .next t → t.a = s.a ∧ t.b = s.b ∧ t.c = s.c) ∧
    (exec (.bdv x) s = .next t → t.a = s.a ∧ t.c = s.c ∧ t.out = s.out) ∧
    (exec (.cdv x) s = .next t → t.a = s.a ∧ t.b = s.b ∧ t.out = s.out) ∧
    (∀ i ∈ [Instr.adv x, .bst x, .out x, .bdv x, .cdv x], exec i s = .next t →
      s.sameTape t ∧
      (∀ v, combo x s = some v → s.sameStatus t) ∧
      (combo x s = none → t.a = s.a ∧ t.b = s.b ∧ t.c = s.c ∧ t.pc = s.pc ∧ t.out = s.out))

/-- The frame of the instructions with a literal or an ignored operand (bxl, jnz, bxc), which store to no
memory: bxl and bxc leave A and C, jnz leaves all three registers; the output, the run state and the record
are as before, and the tape reads as before at every index. -/
def Obligations.LiteralInstructionFrame : Prop :=
  ∀ (s t : State) (x : Byte),
    (exec (.bxl x) s = .next t → t.a = s.a ∧ t.c = s.c) ∧
    (exec (.bxc x) s = .next t → t.a = s.a ∧ t.c = s.c) ∧
    (exec (.jnz x) s = .next t → t.a = s.a ∧ t.b = s.b ∧ t.c = s.c) ∧
    (∀ i ∈ [Instr.bxl x, .bxc x, .jnz x], exec i s = .next t →
      t.out = s.out ∧ s.sameStatus t ∧ s.sameTape t)

/-- Who writes which register (10_state.md R13, which the spec marks as derived): a step changes A only
where the opcode at `pc` is 0, B only where it is 1, 2, 4 or 6, C only where it is 7, and never two
registers at once. -/
def Obligations.RegisterWriters : Prop :=
  ∀ s t : State, step s = .next t →
    (t.a ≠ s.a → memRead s s.pc = some 0 ∧ t.b = s.b ∧ t.c = s.c) ∧
    (t.b ≠ s.b → (∃ op ∈ [1, 2, 4, 6], memRead s s.pc = some op) ∧ t.a = s.a ∧ t.c = s.c) ∧
    (t.c ≠ s.c → memRead s s.pc = some 7 ∧ t.a = s.a ∧ t.b = s.b)

/-! The execution loop (40_execution.md) and the faults (60_exceptions.md). -/

/-- Where the two cells at `pc`, odd or even, decode to an instruction, a step in RUNNING is that
instruction's effect and nothing else (40_execution.md R60, R61). -/
def Obligations.StepRunsDecodedInstruction : Prop :=
  ∀ (s : State) (op x : Byte) (i : Instr), s.runState = .running →
    memRead s s.pc = some op → memRead s (s.pc + 1) = some x → decode [op, x] = .ok (i, []) →
    step s = exec i s

/-- An opcode byte from 8 to 255 selects no instruction, whatever the operand (30_encoding.md R47), and the
step takes InvalidOpcode with `pc` and both bytes in the record (60_exceptions.md R88). -/
def Obligations.InvalidOpcodeRecord : Prop :=
  ∀ (s : State) (op x : Byte), s.runState = .running →
    memRead s s.pc = some op → memRead s (s.pc + 1) = some x → 8 ≤ op.toNat →
    decodePair op x = none ∧
    step s = .next { s with
      runState := .faulted, faultCause := .invalidOpcode, faultIp := s.pc, faultByte0 := op
      faultByte1 := some x }

/-- At `pc = len - 1` a step takes MalformedProgram with `pc` and the lone byte in the record, a fault and
not a halt, and the tests of R58 and R59 leave a full pair to fetch at every smaller `pc` (40_execution.md
R59); nothing else raises it, so an odd `len` alone does not (60_exceptions.md R87). The spec's decision
D7. -/
def Obligations.TruncatedFetchFaults : Prop :=
  ∀ s : State, s.runState = .running →
    (s.pc + 1 = s.len → ∃ b, memRead s s.pc = some b ∧
      step s = .next { s with
        runState := .faulted, faultCause := .malformedProgram, faultIp := s.pc, faultByte0 := b
        faultByte1 := none }) ∧
    (s.len ≤ s.pc → ∃ t, step s = .next t ∧ t.runState = .halted) ∧
    (s.pc + 1 < s.len → ∃ op x, fetchCells s = [op, x] ∧ memRead s s.pc = some op ∧
      memRead s (s.pc + 1) = some x) ∧
    (∀ t, step s = .next t → t.runState = .faulted → t.faultCause = .malformedProgram →
      s.pc + 1 = s.len)

/-- At or past the end a step halts and changes nothing else; the result is the output as it stands, be it
empty (40_execution.md R58). -/
def Obligations.HaltAtEnd : Prop :=
  ∀ s : State, s.runState = .running → s.len ≤ s.pc →
    ∃ t, step s = .next t ∧ t = { s with runState := .halted } ∧
      runResult t = some (s.out.map BitVec.toNat)

/-- A step is possible only in RUNNING, and from there it does exactly one of three things: it halts, it
faults, or it executes one instruction and stays RUNNING (40_execution.md R57). -/
def Obligations.StepDoesOneOfThree : Prop :=
  ∀ s : State,
    (s.runState ≠ .running → ∀ t, step s ≠ .next t) ∧
    (s.runState = .running → ∃ t, step s = .next t ∧
      ((t.runState = .halted ∧ s.len ≤ s.pc) ∨
       (t.runState = .faulted ∧ s.pc < s.len ∧ t.faultCause ≠ .noFault) ∨
       (t.runState = .running ∧
        ∃ op x i, fetchCells s = [op, x] ∧ decodePair op x = some i ∧ exec i s = .next t)))

/-- How the end of a run shows: HALTED is a refusal of its own name, FAULTED a fault that holds the record.
This is the model's choice (log entries 4 and 5); 60_exceptions.md R91 asks that FAULTED be a fault. -/
def Obligations.EndsShowAtTheInterface : Prop :=
  ∀ s : State,
    (s.runState = .halted → step s = .refused .runHalted) ∧
    (s.runState = .faulted → ∃ f, step s = .fault f ∧
      f = .runFaulted s.faultCause s.faultIp s.faultByte0 s.faultByte1 ∧
      faultReport s = some (s.faultCause, s.faultIp, s.faultByte0, s.faultByte1))

/-- A step checks halt, MalformedProgram, InvalidOpcode and InvalidOperand in this order and takes the first
that applies (60_exceptions.md R90, which the spec marks as derived). -/
def Obligations.FaultPriority : Prop :=
  ∀ s t : State, step s = .next t → ∀ op x : Byte,
    (memRead s s.pc).getD 0 = op → (memRead s (s.pc + 1)).getD 0 = x →
    if s.len ≤ s.pc then t.runState = .halted
    else if s.pc + 1 = s.len then t.runState = .faulted ∧ t.faultCause = .malformedProgram
    else if 8 ≤ op.toNat then t.runState = .faulted ∧ t.faultCause = .invalidOpcode
    else if op.toNat ∈ [0, 2, 5, 6, 7] ∧ 7 ≤ x.toNat then
      t.runState = .faulted ∧ t.faultCause = .invalidOperand
    else t.runState = .running

/-- What a fault does (60_exceptions.md R91): `run_state` and the record are written, with the cause, the
faulting `pc` and its bytes, and nothing else changes; a faulted run has no result and takes no further
step. -/
def Obligations.FaultEntryWritesRecordOnly : Prop :=
  ∀ s t : State, step s = .next t → t.runState = .faulted →
    t = { s with
      runState := .faulted, faultCause := t.faultCause, faultIp := s.pc, faultByte0 := t.faultByte0
      faultByte1 := t.faultByte1 } ∧
    (t.faultCause = .malformedProgram ↔ s.pc + 1 = s.len) ∧
    (t.faultCause = .invalidOpcode ↔ s.pc + 1 < s.len ∧ 8 ≤ t.faultByte0.toNat) ∧
    t.faultCause ≠ .noFault ∧ memRead s s.pc = some t.faultByte0 ∧
    (t.faultCause = .malformedProgram → t.faultByte1 = none) ∧
    (t.faultCause ≠ .malformedProgram →
      t.faultByte1 = memRead s (s.pc + 1) ∧ t.faultByte1.isSome = true) ∧
    runResult t = none ∧ ∀ u, step t ≠ .next u

/-- The advance rule (40_execution.md R63): a step that executes an instruction without a fault moves `pc`
by 2, but for a taken jnz, which sets it; a faulting step and a halting step leave it. -/
def Obligations.AdvanceRule : Prop :=
  ∀ s t : State, step s = .next t →
    (t.runState = .running → memRead s s.pc = some 3 → s.a ≠ 0 →
      ∃ x, memRead s (s.pc + 1) = some x ∧ t.pc = x.toNat) ∧
    (t.runState = .running → ¬ (memRead s s.pc = some 3 ∧ s.a ≠ 0) → t.pc = s.pc + 2) ∧
    (t.runState ≠ .running → t.pc = s.pc)

/-! Runs (20_memory.md, 10_state.md, 40_execution.md). -/

/-- The tape is read-only to the core (20_memory.md R25): whatever the run, its length and every cell read
as they did at its start. -/
def Obligations.TapeIsImmutable : Prop :=
  ∀ (n : Nat) (s t : State), s.reaches n t → s.sameTape t

/-- The output is append-only (10_state.md R20): what a run has emitted is a prefix of what it has emitted
later, a step appends at most one element, and only the out instruction appends. -/
def Obligations.OutputOnlyGrows : Prop :=
  (∀ (n : Nat) (s t : State), s.reaches n t → s.out <+: t.out) ∧
  (∀ s t : State, step s = .next t → t.out ≠ s.out →
    memRead s s.pc = some 5 ∧ ∃ d, t.out = s.out ++ [d])

/-- Once `run_state` leaves RUNNING it never returns to RUNNING within the run, because no step is taken
(10_state.md R18): no run goes on from its end. -/
def Obligations.RunStaysEnded : Prop :=
  ∀ (m k : Nat) (s t u : State), s.reaches m t → t.runState ≠ .running → ¬ s.reaches (m + k + 1) u

/-- No instruction reads the output or the fault record (10_state.md R18, R20): a step from a state with
another output before it and another record does the same to everything else. -/
def Obligations.OutputAndRecordAreNotRead : Prop :=
  ∀ (s t : State) (o : List Digit) (k : FaultCause) (ip : Nat) (p : Byte) (q : Option Byte),
    step s = .next t →
    ∃ u, step { s with
        out := o ++ s.out, faultCause := k, faultIp := ip, faultByte0 := p, faultByte1 := q } =
        .next u ∧
      u.a = t.a ∧ u.b = t.b ∧ u.c = t.c ∧ u.pc = t.pc ∧ u.tape = t.tape ∧ u.len = t.len ∧
      u.out = o ++ t.out ∧ u.runState = t.runState ∧
      (t.runState = .faulted → u.faultCause = t.faultCause ∧ u.faultIp = t.faultIp ∧
        u.faultByte0 = t.faultByte0 ∧ u.faultByte1 = t.faultByte1)

/-- A jnz to its own index with A ≠ 0 loops forever (43_control.md R82; 40_execution.md R72): the run is
still there after any number of steps. -/
def Obligations.SelfJumpNeverEnds : Prop :=
  ∀ (s : State) (x : Byte), s.runState = .running → s.a ≠ 0 →
    memRead s s.pc = some 3 → memRead s (s.pc + 1) = some x → x.toNat = s.pc →
    ∀ n, s.reaches n s

/-- A run ends normally exactly when its instruction pointer comes to stand at or past the end of the
program while it is RUNNING (40_execution.md R58, R72). -/
def Obligations.HaltsIffPointerPassesEnd : Prop :=
  ∀ s : State, s.runState = .running →
    ((∃ n t, s.reaches n t ∧ t.runState = .halted) ↔
      ∃ n t, s.reaches n t ∧ t.runState = .running ∧ t.len ≤ t.pc)

/-- A run enters FAULTED exactly when the machine answers a fault (60_exceptions.md R91: FAULTED is a fault
and never a successful end). That the fault is answered by the step after is the model's choice (log
entry 4). -/
def Obligations.SafeMeansNoFault : Prop :=
  ∀ s : State, s.safe ↔ ∀ n r, Host.Core.run core n s ≠ .fault r

/-- The even-index property (40_execution.md R73, which the spec marks as derived): with an even `len` and
an even `pc`, a step whose jnz, if taken, has an even literal leaves `pc` even. -/
def Obligations.EvenPointerKept : Prop :=
  ∀ s t : State, s.len % 2 = 0 → s.pc % 2 = 0 →
    (memRead s s.pc = some 3 → s.a ≠ 0 →
      ∀ x, memRead s (s.pc + 1) = some x → x.toNat % 2 = 0) →
    step s = .next t → t.len % 2 = 0 ∧ t.pc % 2 = 0

/-- Every step keeps the invariant of a run: no tape cell listed at or past `len` (20_memory.md R23), `pc`
at most max(len, 255) (10_state.md R17, 40_execution.md R73), a halted run at or past the end (R58), and a
fault record that its own bytes bear out (R18, R86 to R89). The invariant's other clause on the tape, its
canonical form (rising indices, no listed byte 0), is the model's choice (log entry 3). -/
def Obligations.StepKeepsInvariant : Prop :=
  ∀ s t : State, s.Inv → step s = .next t → t.Inv

/-- The machine over 128-bit registers is the step block of 40_execution.md R65 over natural numbers without
a width, step by step (10_state.md R14, which the spec marks as derived): it takes a step exactly where R65
does, to the state R65 gives. -/
def Obligations.RefinesUnboundedPseudocode : Prop :=
  ∀ s : State,
    (∀ t, step s = .next t → s.toNatCore.step s.natCell s.len = some t.toNatCore) ∧
    ((∀ t, step s ≠ .next t) → s.toNatCore.step s.natCell s.len = none)

/-! The launch and the host (70_reset_and_hazards.md). -/

/-- The launch writes every piece of state (70_reset_and_hazards.md R101): for a host that meets the
premises, the registers hold its values, the tape its program and no cell past it, `pc` is 0, the output
empty, the run RUNNING with no fault recorded. -/
def Obligations.LaunchWritesEverything : Prop :=
  ∀ (build : Config.Build) (program : List Nat) (a0 b0 c0 : Nat),
    a0 < 2 ^ 128 → b0 < 2 ^ 128 → c0 < 2 ^ 128 → (∀ v ∈ program, v < 256) →
    program.length ≤ build.progLenMax →
    ∃ t, launch build program a0 b0 c0 = .next t ∧
      t.a.toNat = a0 ∧ t.b.toNat = b0 ∧ t.c.toNat = c0 ∧ t.pc = 0 ∧ t.out = [] ∧
      t.runState = .running ∧ t.faultCause = .noFault ∧ t.faultIp = 0 ∧ t.faultByte0 = 0 ∧
      t.faultByte1 = none ∧ t.len = program.length ∧
      ∀ i, (memRead t i).map BitVec.toNat = program[i]?

/-- A launch outside the premises is refused (70_reset_and_hazards.md R102, the spec's decision D3): the
model says nothing of it. The names of the refusals are the model's (log entry 8). -/
def Obligations.LaunchOutsidePremisesRefused : Prop :=
  ∀ (build : Config.Build) (program : List Nat) (a0 b0 c0 : Nat),
    (2 ^ 128 ≤ a0 ∨ 2 ^ 128 ≤ b0 ∨ 2 ^ 128 ≤ c0 ∨ (∃ v ∈ program, 256 ≤ v) ∨
      build.progLenMax < program.length) →
    ∃ r, launch build program a0 b0 c0 = .refused r

/-- State.reset is a launch with an empty program and registers 0, the model's choice (log entries 1
and 2), and its one step halts with an empty result (decision D8). -/
def Obligations.ResetIsAnEmptyLaunch : Prop :=
  (∀ build : Config.Build, launch build [] 0 0 0 = .next State.reset) ∧
    ∃ t, step State.reset = .next t ∧ runResult t = some []

/-- The invariant that every step keeps holds at State.reset, whose registers and program are the model's
choice (log entries 1 and 2), as is the canonical form of the tape in the invariant (log entry 3). -/
def Obligations.ResetMeetsInvariant : Prop :=
  State.reset.Inv

/-- A launched run never needs more bits of instruction pointer than R6 asks a build to have: at every step
boundary `pc` is below 2^IP_WIDTH (10_state.md R17, which the spec marks as derived). Beside it, every
state of the run meets the invariant of a run, whose clause on the canonical form of the tape is the model's
choice (log entry 3). -/
def Obligations.PointerFitsBuild : Prop :=
  ∀ (build : Config.Build) (program : List Nat) (a0 b0 c0 : Nat) (s t : State) (n : Nat),
    build.wf = true → launch build program a0 b0 c0 = .next s → s.reaches n t →
    t.Inv ∧ t.pc < 2 ^ build.ipWidth

/-- What the host receives (44_output.md R85): after a launched run halts, its result is the output in
emission order, each element from 0 to 7, one for every out instruction executed during the run. -/
def Obligations.ResultHasOneElementPerOut : Prop :=
  ∀ (build : Config.Build) (program : List Nat) (a0 b0 c0 : Nat) (s t : State) (n : Nat),
    launch build program a0 b0 c0 = .next s → s.reaches n t → t.runState = .halted →
    ∃ l, runResult t = some l ∧ l = t.out.map BitVec.toNat ∧ (∀ v ∈ l, v ≤ 7) ∧
      l.length = State.outSteps n s

/-- What the host sees of a run (10_state.md R22): nothing while it is RUNNING; the result and the registers
when it HALTED; the fault record, the registers and the output before the fault when it FAULTED, none of
which is a result. -/
def Obligations.HostView : Prop :=
  ∀ s : State,
    (s.runState = .running → runResult s = none ∧ faultReport s = none ∧ finalRegisters s = none ∧
      outputBeforeFault s = none) ∧
    (s.runState = .halted → runResult s = some (s.out.map BitVec.toNat) ∧ faultReport s = none ∧
      finalRegisters s = some (s.a.toNat, s.b.toNat, s.c.toNat)) ∧
    (s.runState = .faulted → runResult s = none ∧
      faultReport s = some (s.faultCause, s.faultIp, s.faultByte0, s.faultByte1) ∧
      finalRegisters s = some (s.a.toNat, s.b.toNat, s.c.toNat) ∧
      outputBeforeFault s = some (s.out.map BitVec.toNat))
end

