-- ==== Sys2Proof/Laws/Decode.lean ====
section
/-! SUPPORT. The small laws of the decoder and the encoder. -/

namespace Sys2Proof

/-- Reading an operand byte and writing it back loses nothing. -/
@[simp] theorem Combo.toByte_ofByte (x : Byte) : (Combo.ofByte x).toByte = x := by
  unfold Combo.ofByte
  split <;> simp_all [Combo.toByte, BitVec.toNat_eq]

/-- Every operand byte reads as a well-formed combo operand. -/
@[simp] theorem Combo.wf_ofByte (x : Byte) : (Combo.ofByte x).wf = true := by
  unfold Combo.ofByte
  split <;> simp_all [Combo.wf]
  omega

/-- A byte of 7 or more reads as an invalid combo operand (30_encoding.md R50, R51). -/
theorem Combo.ofByte_invalid {x : Byte} (h : 7 ≤ x.toNat) : Combo.ofByte x = .invalid x := by
  unfold Combo.ofByte
  split <;> first | rfl | omega

/-- The operand byte of a constant names that constant. -/
theorem Combo.ofByte_constant (k : BitVec 2) :
    Combo.ofByte (Combo.constant k).toByte = .constant k := by
  revert k
  decide

/-- The opcodes that select nothing are 8 to 255 (30_encoding.md R47). -/
theorem decodePair_eq_none_iff {op x : Byte} : decodePair op x = none ↔ 8 ≤ op.toNat := by
  unfold decodePair
  split <;> simp_all
  omega

/-- What the decoder gives on a pair that selects an instruction. -/
theorem decode_pair_of_some {op x : Byte} {i : Instr} (h : decodePair op x = some i)
    (rest : List Byte) : decode (op :: x :: rest) = .ok (i, rest) := by simp [decode, h]

/-- What the decoder gives on a pair that selects none. -/
theorem decode_pair_of_none {op x : Byte} (h : decodePair op x = none) (rest : List Byte) :
    decode (op :: x :: rest) = .error (.invalidOpcode op x) := by simp [decode, h]

/-- Every opcode of the map is below 8 (30_encoding.md R45). -/
theorem Instr.opcode_lt (i : Instr) : i.opcode.toNat < 8 := by
  cases i <;> simp [Instr.opcode]

@[simp] theorem encode_length (i : Instr) : (encode i).length = 2 := rfl

@[simp] theorem assemble_length (is : List Instr) : (assemble is).length = 2 * is.length := by
  induction is with
  | nil => rfl
  | cons i is ih =>
    simp [assemble, ih]
    omega

end Sys2Proof
end

