-- ==== Sys2Proof/Laws/State.lean ====
section
/-! SUPPORT. What each named update of the state does to each field. -/

namespace Sys2Proof.Machine

/-! `jumpTo` writes `pc` alone (43_control.md R82). -/
@[simp] theorem jumpTo_a (t : Nat) (s : State) :
    (jumpTo t s).a = s.a := rfl
@[simp] theorem jumpTo_b (t : Nat) (s : State) :
    (jumpTo t s).b = s.b := rfl
@[simp] theorem jumpTo_c (t : Nat) (s : State) :
    (jumpTo t s).c = s.c := rfl
@[simp] theorem jumpTo_pc (t : Nat) (s : State) :
    (jumpTo t s).pc = t := rfl
@[simp] theorem jumpTo_tape (t : Nat) (s : State) :
    (jumpTo t s).tape = s.tape := rfl
@[simp] theorem jumpTo_len (t : Nat) (s : State) :
    (jumpTo t s).len = s.len := rfl
@[simp] theorem jumpTo_out (t : Nat) (s : State) :
    (jumpTo t s).out = s.out := rfl
@[simp] theorem jumpTo_runState (t : Nat) (s : State) :
    (jumpTo t s).runState = s.runState := rfl
@[simp] theorem jumpTo_faultCause (t : Nat) (s : State) :
    (jumpTo t s).faultCause = s.faultCause := rfl
@[simp] theorem jumpTo_faultIp (t : Nat) (s : State) :
    (jumpTo t s).faultIp = s.faultIp := rfl
@[simp] theorem jumpTo_faultByte0 (t : Nat) (s : State) :
    (jumpTo t s).faultByte0 = s.faultByte0 := rfl
@[simp] theorem jumpTo_faultByte1 (t : Nat) (s : State) :
    (jumpTo t s).faultByte1 = s.faultByte1 := rfl

/-! `advance` moves `pc` alone (40_execution.md R63). -/
@[simp] theorem advance_a (s : State) :
    (advance s).a = s.a := rfl
@[simp] theorem advance_b (s : State) :
    (advance s).b = s.b := rfl
@[simp] theorem advance_c (s : State) :
    (advance s).c = s.c := rfl
@[simp] theorem advance_pc (s : State) :
    (advance s).pc = s.pc + 2 := rfl
@[simp] theorem advance_tape (s : State) :
    (advance s).tape = s.tape := rfl
@[simp] theorem advance_len (s : State) :
    (advance s).len = s.len := rfl
@[simp] theorem advance_out (s : State) :
    (advance s).out = s.out := rfl
@[simp] theorem advance_runState (s : State) :
    (advance s).runState = s.runState := rfl
@[simp] theorem advance_faultCause (s : State) :
    (advance s).faultCause = s.faultCause := rfl
@[simp] theorem advance_faultIp (s : State) :
    (advance s).faultIp = s.faultIp := rfl
@[simp] theorem advance_faultByte0 (s : State) :
    (advance s).faultByte0 = s.faultByte0 := rfl
@[simp] theorem advance_faultByte1 (s : State) :
    (advance s).faultByte1 = s.faultByte1 := rfl

/-! `outAppend` writes the output alone (10_state.md R20). -/
@[simp] theorem outAppend_a (v : Digit) (s : State) :
    (outAppend v s).a = s.a := rfl
@[simp] theorem outAppend_b (v : Digit) (s : State) :
    (outAppend v s).b = s.b := rfl
@[simp] theorem outAppend_c (v : Digit) (s : State) :
    (outAppend v s).c = s.c := rfl
@[simp] theorem outAppend_pc (v : Digit) (s : State) :
    (outAppend v s).pc = s.pc := rfl
@[simp] theorem outAppend_tape (v : Digit) (s : State) :
    (outAppend v s).tape = s.tape := rfl
@[simp] theorem outAppend_len (v : Digit) (s : State) :
    (outAppend v s).len = s.len := rfl
@[simp] theorem outAppend_out (v : Digit) (s : State) :
    (outAppend v s).out = s.out ++ [v] := rfl
@[simp] theorem outAppend_runState (v : Digit) (s : State) :
    (outAppend v s).runState = s.runState := rfl
@[simp] theorem outAppend_faultCause (v : Digit) (s : State) :
    (outAppend v s).faultCause = s.faultCause := rfl
@[simp] theorem outAppend_faultIp (v : Digit) (s : State) :
    (outAppend v s).faultIp = s.faultIp := rfl
@[simp] theorem outAppend_faultByte0 (v : Digit) (s : State) :
    (outAppend v s).faultByte0 = s.faultByte0 := rfl
@[simp] theorem outAppend_faultByte1 (v : Digit) (s : State) :
    (outAppend v s).faultByte1 = s.faultByte1 := rfl

/-! `halt` writes the run state alone (40_execution.md R58). -/
@[simp] theorem halt_a (s : State) :
    (halt s).a = s.a := rfl
@[simp] theorem halt_b (s : State) :
    (halt s).b = s.b := rfl
@[simp] theorem halt_c (s : State) :
    (halt s).c = s.c := rfl
@[simp] theorem halt_pc (s : State) :
    (halt s).pc = s.pc := rfl
@[simp] theorem halt_tape (s : State) :
    (halt s).tape = s.tape := rfl
@[simp] theorem halt_len (s : State) :
    (halt s).len = s.len := rfl
@[simp] theorem halt_out (s : State) :
    (halt s).out = s.out := rfl
@[simp] theorem halt_runState (s : State) :
    (halt s).runState = .halted := rfl
@[simp] theorem halt_faultCause (s : State) :
    (halt s).faultCause = s.faultCause := rfl
@[simp] theorem halt_faultIp (s : State) :
    (halt s).faultIp = s.faultIp := rfl
@[simp] theorem halt_faultByte0 (s : State) :
    (halt s).faultByte0 = s.faultByte0 := rfl
@[simp] theorem halt_faultByte1 (s : State) :
    (halt s).faultByte1 = s.faultByte1 := rfl

/-! `takeFault` writes the run state and the record alone (60_exceptions.md R91). -/
@[simp] theorem takeFault_a (k : FaultCause) (p : Byte) (q : Option Byte) (s : State) :
    (takeFault k p q s).a = s.a := rfl
@[simp] theorem takeFault_b (k : FaultCause) (p : Byte) (q : Option Byte) (s : State) :
    (takeFault k p q s).b = s.b := rfl
@[simp] theorem takeFault_c (k : FaultCause) (p : Byte) (q : Option Byte) (s : State) :
    (takeFault k p q s).c = s.c := rfl
@[simp] theorem takeFault_pc (k : FaultCause) (p : Byte) (q : Option Byte) (s : State) :
    (takeFault k p q s).pc = s.pc := rfl
@[simp] theorem takeFault_tape (k : FaultCause) (p : Byte) (q : Option Byte) (s : State) :
    (takeFault k p q s).tape = s.tape := rfl
@[simp] theorem takeFault_len (k : FaultCause) (p : Byte) (q : Option Byte) (s : State) :
    (takeFault k p q s).len = s.len := rfl
@[simp] theorem takeFault_out (k : FaultCause) (p : Byte) (q : Option Byte) (s : State) :
    (takeFault k p q s).out = s.out := rfl
@[simp] theorem takeFault_runState (k : FaultCause) (p : Byte) (q : Option Byte) (s : State) :
    (takeFault k p q s).runState = .faulted := rfl
@[simp] theorem takeFault_faultCause (k : FaultCause) (p : Byte) (q : Option Byte) (s : State) :
    (takeFault k p q s).faultCause = k := rfl
@[simp] theorem takeFault_faultIp (k : FaultCause) (p : Byte) (q : Option Byte) (s : State) :
    (takeFault k p q s).faultIp = s.pc := rfl
@[simp] theorem takeFault_faultByte0 (k : FaultCause) (p : Byte) (q : Option Byte) (s : State) :
    (takeFault k p q s).faultByte0 = p := rfl
@[simp] theorem takeFault_faultByte1 (k : FaultCause) (p : Byte) (q : Option Byte) (s : State) :
    (takeFault k p q s).faultByte1 = q := rfl

/-! `placePair` places one instruction (log entry 6). -/
@[simp] theorem placePair_a (op x : Byte) (s : State) :
    (placePair op x s).a = s.a := rfl
@[simp] theorem placePair_b (op x : Byte) (s : State) :
    (placePair op x s).b = s.b := rfl
@[simp] theorem placePair_c (op x : Byte) (s : State) :
    (placePair op x s).c = s.c := rfl
@[simp] theorem placePair_pc (op x : Byte) (s : State) :
    (placePair op x s).pc = s.pc := rfl
@[simp] theorem placePair_tape (op x : Byte) (s : State) :
    (placePair op x s).tape = tapeSet (tapeSet s.tape s.pc op) (s.pc + 1) x := rfl
@[simp] theorem placePair_len (op x : Byte) (s : State) :
    (placePair op x s).len = max s.len (s.pc + 2) := rfl
@[simp] theorem placePair_out (op x : Byte) (s : State) :
    (placePair op x s).out = s.out := rfl
@[simp] theorem placePair_runState (op x : Byte) (s : State) :
    (placePair op x s).runState = .running := rfl
@[simp] theorem placePair_faultCause (op x : Byte) (s : State) :
    (placePair op x s).faultCause = s.faultCause := rfl
@[simp] theorem placePair_faultIp (op x : Byte) (s : State) :
    (placePair op x s).faultIp = s.faultIp := rfl
@[simp] theorem placePair_faultByte0 (op x : Byte) (s : State) :
    (placePair op x s).faultByte0 = s.faultByte0 := rfl
@[simp] theorem placePair_faultByte1 (op x : Byte) (s : State) :
    (placePair op x s).faultByte1 = s.faultByte1 := rfl

/-! `writeReg` writes one register (10_state.md R12). -/
@[simp] theorem readReg_writeReg_same (r : Reg) (v : Word) (s : State) :
    readReg r (writeReg r v s) = v := by cases r <;> rfl
theorem readReg_writeReg_other {q r : Reg} (h : q ≠ r) (v : Word) (s : State) :
    readReg q (writeReg r v s) = readReg q s := by cases q <;> cases r <;> simp_all [readReg, writeReg]
@[simp] theorem writeReg_a_a (v : Word) (s : State) : (writeReg .a v s).a = v := rfl
@[simp] theorem writeReg_a_b (v : Word) (s : State) : (writeReg .a v s).b = s.b := rfl
@[simp] theorem writeReg_a_c (v : Word) (s : State) : (writeReg .a v s).c = s.c := rfl
@[simp] theorem writeReg_b_a (v : Word) (s : State) : (writeReg .b v s).a = s.a := rfl
@[simp] theorem writeReg_b_b (v : Word) (s : State) : (writeReg .b v s).b = v := rfl
@[simp] theorem writeReg_b_c (v : Word) (s : State) : (writeReg .b v s).c = s.c := rfl
@[simp] theorem writeReg_c_a (v : Word) (s : State) : (writeReg .c v s).a = s.a := rfl
@[simp] theorem writeReg_c_b (v : Word) (s : State) : (writeReg .c v s).b = s.b := rfl
@[simp] theorem writeReg_c_c (v : Word) (s : State) : (writeReg .c v s).c = v := rfl
@[simp] theorem writeReg_pc (r : Reg) (v : Word) (s : State) :
    (writeReg r v s).pc = s.pc := by cases r <;> rfl
@[simp] theorem writeReg_tape (r : Reg) (v : Word) (s : State) :
    (writeReg r v s).tape = s.tape := by cases r <;> rfl
@[simp] theorem writeReg_len (r : Reg) (v : Word) (s : State) :
    (writeReg r v s).len = s.len := by cases r <;> rfl
@[simp] theorem writeReg_out (r : Reg) (v : Word) (s : State) :
    (writeReg r v s).out = s.out := by cases r <;> rfl
@[simp] theorem writeReg_runState (r : Reg) (v : Word) (s : State) :
    (writeReg r v s).runState = s.runState := by cases r <;> rfl
@[simp] theorem writeReg_faultCause (r : Reg) (v : Word) (s : State) :
    (writeReg r v s).faultCause = s.faultCause := by cases r <;> rfl
@[simp] theorem writeReg_faultIp (r : Reg) (v : Word) (s : State) :
    (writeReg r v s).faultIp = s.faultIp := by cases r <;> rfl
@[simp] theorem writeReg_faultByte0 (r : Reg) (v : Word) (s : State) :
    (writeReg r v s).faultByte0 = s.faultByte0 := by cases r <;> rfl
@[simp] theorem writeReg_faultByte1 (r : Reg) (v : Word) (s : State) :
    (writeReg r v s).faultByte1 = s.faultByte1 := by cases r <;> rfl

/-! `readReg` reads the register it names. -/
@[simp] theorem readReg_a (s : State) : readReg .a s = s.a := rfl
@[simp] theorem readReg_b (s : State) : readReg .b s = s.b := rfl
@[simp] theorem readReg_c (s : State) : readReg .c s = s.c := rfl

end Sys2Proof.Machine
end

