-- ==== Sys2Proof/Laws/Exec.lean ====
section
/-! SUPPORT. What operand resolution, and an instruction, can do. -/

namespace Sys2Proof.Machine

/-- Only an invalid combo operand fails to resolve (30_encoding.md R49 to R51). -/
theorem combo_eq_none_iff {x : Combo} {s : State} : combo x s = none ↔ ∃ b, x = .invalid b := by
  cases x <;> simp [combo]

theorem withCombo_resolved {x : Combo} {s : State} {v : Word} (h : combo x s = some v) (op : Byte)
    (effect : Word → State) : withCombo op x s effect = .next (effect v) := by
  simp [withCombo, h]

theorem withCombo_unresolved {x : Combo} {s : State} (h : combo x s = none) (op : Byte)
    (effect : Word → State) :
    withCombo op x s effect = .next (takeFault .invalidOperand op (some x.toByte) s) := by
  simp [withCombo, h]

/-- All a combo instruction can do: its effect on the resolved value, or InvalidOperand. -/
theorem withCombo_next {op : Byte} {x : Combo} {s t : State} {effect : Word → State}
    (h : withCombo op x s effect = .next t) :
    (∃ v, combo x s = some v ∧ t = effect v) ∨
      (combo x s = none ∧ t = takeFault .invalidOperand op (some x.toByte) s) := by
  unfold withCombo at h
  split at h
  · rename_i v hv
    exact .inl ⟨v, hv, by cases h; rfl⟩
  · rename_i hv
    exact .inr ⟨hv, by cases h; rfl⟩

/-- All a taken or untaken jnz can do (43_control.md R82). -/
theorem execJnz_eq (x : Byte) (s : State) :
    execJnz x s = if s.a ≠ 0 then .next (jumpTo x.toNat s) else .next (advance s) := by
  simp [execJnz, aNonzero, literal]

/-- What an executed instruction writes: one register, one output element, or `pc` alone
(40_execution.md R64), or the fault record. -/
inductive Effect (i : Instr) (s t : State) : Prop where
  | register (r : Reg) (v : Word) (h : t = advance (writeReg r v s))
  | output (v : Digit) (hi : ∃ x, i = .out x) (h : t = advance (outAppend v s))
  | jump (x : Byte) (hi : i = .jnz x) (ha : s.a ≠ 0) (h : t = jumpTo x.toNat s)
  | fallThrough (x : Byte) (hi : i = .jnz x) (ha : s.a = 0) (h : t = advance s)
  | invalidOperand (b : Byte) (hb : i.operand = b) (ho : i.opcode.toNat ∈ [0, 2, 5, 6, 7])
      (hx : ∃ x, combo x s = none ∧ x.toByte = b)
      (h : t = takeFault .invalidOperand i.opcode (some b) s)

/-- A combo instruction whose resolved effect is one of these can do nothing but that or InvalidOperand. -/
theorem withCombo_effect {i : Instr} {x : Combo} {s : State} {effect : Word → State}
    (hx : i.operand = x.toByte) (ho : i.opcode.toNat ∈ [0, 2, 5, 6, 7])
    (h : ∀ v, Effect i s (effect v)) : ∃ t, withCombo i.opcode x s effect = .next t ∧ Effect i s t := by
  cases hc : combo x s with
  | some v => exact ⟨_, withCombo_resolved hc .., h v⟩
  | none => exact ⟨_, withCombo_unresolved hc .., .invalidOperand x.toByte hx ho ⟨x, hc, rfl⟩ rfl⟩

/-- Every instruction answers a next state, and it is one of these effects. -/
theorem exec_next (i : Instr) (s : State) : ∃ t, exec i s = .next t ∧ Effect i s t := by
  cases i with
  | adv x =>
    exact withCombo_effect (i := .adv x) rfl (by simp [Instr.opcode]) fun v => .register _ _ rfl
  | bdv x =>
    exact withCombo_effect (i := .bdv x) rfl (by simp [Instr.opcode]) fun v => .register _ _ rfl
  | cdv x =>
    exact withCombo_effect (i := .cdv x) rfl (by simp [Instr.opcode]) fun v => .register _ _ rfl
  | bst x =>
    exact withCombo_effect (i := .bst x) rfl (by simp [Instr.opcode]) fun v => .register _ _ rfl
  | out x =>
    exact withCombo_effect (i := .out x) rfl (by simp [Instr.opcode]) fun v => .output _ ⟨x, rfl⟩ rfl
  | bxl x => exact ⟨_, rfl, .register _ _ rfl⟩
  | bxc x => exact ⟨_, rfl, .register _ _ rfl⟩
  | jnz x =>
    by_cases ha : s.a = 0
    · exact ⟨advance s, (execJnz_eq x s).trans (if_neg (not_not.2 ha)), .fallThrough x rfl ha rfl⟩
    · exact ⟨jumpTo x.toNat s, (execJnz_eq x s).trans (if_pos ha), .jump x rfl ha rfl⟩

/-- The effect behind a next state. -/
theorem effect_of_exec {i : Instr} {s t : State} (h : exec i s = .next t) : Effect i s t := by
  obtain ⟨t', ht', he⟩ := exec_next i s
  rw [h] at ht'
  cases ht'
  exact he

end Sys2Proof.Machine
end

