-- ==== Sys2Proof/Laws/Memory.lean ====
section
/-! SUPPORT. The laws of the program tape: read after write, reading a loaded program, and the canonical
form, which every operation keeps. -/

namespace Sys2Proof.Machine

theorem tapeByte_of_absent {m : Memory} {i : Nat} (h : ∀ p ∈ m, p.1 ≠ i) :
    tapeByte m i = unlistedByte := by
  induction m with
  | nil => rfl
  | cons p m ih =>
    simp only [List.mem_cons, forall_eq_or_imp] at h
    simp [tapeByte, h.1, ih h.2]

/-- Reading the cell just written gives the byte written. -/
theorem tapeByte_tapeSet_same {m : Memory} (h : m.wf) (i : Nat) (v : Byte) :
    tapeByte (tapeSet m i v) i = v := by
  induction m with
  | nil =>
    by_cases hv : v = unlistedByte <;> simp [tapeSet, tapeByte, hv]
  | cons p m ih =>
    obtain ⟨j, u⟩ := p
    obtain ⟨hs, hn⟩ := h
    rw [List.pairwise_cons] at hs
    have hm : Memory.wf m := ⟨hs.2, fun q hq => hn q (List.mem_cons_of_mem _ hq)⟩
    have absent : ∀ k, k ≤ j → ∀ q ∈ m, q.1 ≠ k := fun k hk q hq => by
      have := hs.1 q hq
      simp only at this
      omega
    unfold tapeSet
    split
    · rename_i hlt
      by_cases hv : v = unlistedByte
      · have hj : j ≠ i := by omega
        simp [hv, tapeByte, hj, tapeByte_of_absent (absent i (by omega))]
      · simp [hv, tapeByte]
    · split
      · rename_i heq
        subst heq
        by_cases hv : v = unlistedByte
        · simp [hv, tapeByte_of_absent (absent i (Nat.le_refl i))]
        · simp [hv, tapeByte]
      · rename_i hne
        simp [tapeByte, Ne.symm hne, ih hm]

/-- A write leaves every other cell alone. -/
theorem tapeByte_tapeSet_other (m : Memory) {i k : Nat} (hk : k ≠ i) (v : Byte) (h : m.wf) :
    tapeByte (tapeSet m i v) k = tapeByte m k := by
  induction m with
  | nil => by_cases hv : v = unlistedByte <;> simp [tapeSet, tapeByte, hv, Ne.symm hk]
  | cons p m ih =>
    obtain ⟨j, u⟩ := p
    obtain ⟨hs, hn⟩ := h
    rw [List.pairwise_cons] at hs
    have hm : Memory.wf m := ⟨hs.2, fun q hq => hn q (List.mem_cons_of_mem _ hq)⟩
    unfold tapeSet
    split
    · by_cases hv : v = unlistedByte <;> simp [hv, tapeByte, Ne.symm hk]
    · split
      · rename_i heq
        subst heq
        by_cases hv : v = unlistedByte <;> simp [hv, tapeByte, Ne.symm hk]
      · by_cases hj : j = k <;> simp [tapeByte, hj, ih hm]

/-- Every index that a write lists was listed before, or is the one written. -/
theorem tapeSet_indices {m : Memory} {i : Nat} {v : Byte} {p : Host.Cell}
    (hp : p ∈ tapeSet m i v) : p ∈ m ∨ p = (i, v) := by
  induction m with
  | nil =>
    unfold tapeSet at hp
    split at hp <;> simp_all
  | cons q m ih =>
    obtain ⟨j, u⟩ := q
    unfold tapeSet at hp
    split at hp
    · split at hp
      · exact .inl hp
      · exact (List.mem_cons.1 hp).symm
    · split at hp
      · split at hp
        · exact .inl (List.mem_cons_of_mem _ hp)
        · rcases List.mem_cons.1 hp with h | h
          · exact .inr h
          · exact .inl (List.mem_cons_of_mem _ h)
      · simp only [List.mem_cons] at hp ⊢
        rcases hp with rfl | hp
        · exact .inl (.inl rfl)
        · rcases ih hp with h | h
          · exact .inl (.inr h)
          · exact .inr h

/-- A write keeps the canonical form. -/
theorem tapeSet_wf {m : Memory} (h : m.wf) (i : Nat) (v : Byte) : (tapeSet m i v).wf := by
  induction m with
  | nil =>
    by_cases hv : v = unlistedByte
    · simp [tapeSet, hv, Memory.wf]
    · simp [tapeSet, hv, Memory.wf]
  | cons p m ih =>
    obtain ⟨j, u⟩ := p
    have hfull := h
    obtain ⟨hs, hn⟩ := h
    rw [List.pairwise_cons] at hs
    have hm : Memory.wf m := ⟨hs.2, fun q hq => hn q (List.mem_cons_of_mem _ hq)⟩
    unfold tapeSet
    split
    · rename_i hlt
      by_cases hv : v = unlistedByte
      · simpa [hv] using hfull
      · rw [if_neg hv]
        refine ⟨List.pairwise_cons.2 ⟨?_, hfull.1⟩, ?_⟩
        · intro q hq
          rcases List.mem_cons.1 hq with rfl | hq
          · exact hlt
          · have := hs.1 q hq
            simp only at this ⊢
            omega
        · intro q hq
          rcases List.mem_cons.1 hq with rfl | hq
          · exact hv
          · exact hn q hq
    · split
      · rename_i heq
        subst heq
        by_cases hv : v = unlistedByte
        · simpa [hv] using hm
        · rw [if_neg hv]
          refine ⟨List.pairwise_cons.2 ⟨fun q hq => hs.1 q hq, hs.2⟩, ?_⟩
          intro q hq
          rcases List.mem_cons.1 hq with rfl | hq
          · exact hv
          · exact hm.2 q hq
      · rename_i hlt hne
        obtain ⟨ihs, ihn⟩ := ih hm
        refine ⟨List.pairwise_cons.2 ⟨?_, ihs⟩, ?_⟩
        · intro q hq
          rcases tapeSet_indices hq with hq | rfl
          · exact hs.1 q hq
          · simp only
            omega
        · intro q hq
          rcases List.mem_cons.1 hq with rfl | hq
          · exact hn _ (List.mem_cons_self ..)
          · exact ihn q hq

/-- A loaded program lists indices within its length only. -/
theorem tapeOf_indices {i : Nat} {vs : List Byte} {p : Host.Cell} (hp : p ∈ tapeOf i vs) :
    i ≤ p.1 ∧ p.1 < i + vs.length := by
  induction vs generalizing i with
  | nil => simp [tapeOf] at hp
  | cons v vs ih =>
    unfold tapeOf at hp
    simp only [List.length_cons]
    split at hp
    · have := ih hp
      omega
    · rcases List.mem_cons.1 hp with rfl | hp
      · simp only
        omega
      · have := ih hp
        omega

/-- A loaded program is in the canonical form. -/
theorem tapeOf_wf (i : Nat) (vs : List Byte) : (tapeOf i vs).wf := by
  induction vs generalizing i with
  | nil => simp [tapeOf, Memory.wf]
  | cons v vs ih =>
    unfold tapeOf
    split
    · exact ih (i + 1)
    · rename_i hv
      refine ⟨List.pairwise_cons.2 ⟨?_, (ih (i + 1)).1⟩, ?_⟩
      · intro q hq
        have := tapeOf_indices hq
        simp only
        omega
      · intro q hq
        rcases List.mem_cons.1 hq with rfl | hq
        · exact hv
        · exact (ih (i + 1)).2 q hq

/-- A loaded program reads back byte for byte. -/
theorem tapeByte_tapeOf (i : Nat) (vs : List Byte) (k : Nat) :
    tapeByte (tapeOf i vs) (i + k) = (vs[k]?).getD unlistedByte := by
  induction vs generalizing i k with
  | nil => simp [tapeOf, tapeByte]
  | cons v vs ih =>
    unfold tapeOf
    cases k with
    | zero =>
      split
      · rename_i hv
        rw [tapeByte_of_absent]
        · simp [hv]
        · intro p hp
          have := tapeOf_indices hp
          omega
      · simp [tapeByte]
    | succ k =>
      have h := ih (i + 1) k
      rw [show i + 1 + k = i + (k + 1) by omega] at h
      split
      · simpa using h
      · simp only [tapeByte, show ¬ (i = i + (k + 1)) by omega, if_false]
        simpa using h

theorem reset_tape_wf : State.reset.tape.wf := by decide

/-- `MemRead` below `len` finds a cell (20_memory.md R31). -/
theorem memRead_of_lt {s : State} {i : Nat} (h : i < s.len) :
    memRead s i = some (tapeByte s.tape i) := by simp [memRead, h]

/-- `MemRead` at or past `len` finds none (20_memory.md R31). -/
theorem memRead_of_ge {s : State} {i : Nat} (h : s.len ≤ i) : memRead s i = none := by
  simp [memRead, h]

theorem memRead_isSome_iff {s : State} {i : Nat} : (memRead s i).isSome ↔ i < s.len := by
  unfold memRead
  split <;> simp_all

/-- `MemRead` depends on the tape and its length alone. -/
theorem memRead_congr {s t : State} (ht : t.tape = s.tape) (hl : t.len = s.len) (i : Nat) :
    memRead t i = memRead s i := by simp [memRead, ht, hl]

/-- A fetch past the end finds no cell (40_execution.md R58). -/
theorem fetchCells_past {s : State} (h : s.len ≤ s.pc) : fetchCells s = [] := by
  simp [fetchCells, memRead_of_ge h]

/-- A fetch at the last cell finds one (40_execution.md R59). -/
theorem fetchCells_tail {s : State} (h : s.pc + 1 = s.len) :
    fetchCells s = [tapeByte s.tape s.pc] := by
  simp [fetchCells, memRead_of_lt (show s.pc < s.len by omega),
    memRead_of_ge (show s.len ≤ s.pc + 1 by omega)]

/-- Any other fetch finds a pair (40_execution.md R60). -/
theorem fetchCells_pair {s : State} (h : s.pc + 1 < s.len) :
    fetchCells s = [tapeByte s.tape s.pc, tapeByte s.tape (s.pc + 1)] := by
  simp [fetchCells, memRead_of_lt (show s.pc < s.len by omega), memRead_of_lt h]

end Sys2Proof.Machine
end

