-- ==== Sys2Proof/Laws/PerInstr.lean ====
section
/-! SUPPORT. A law of every instruction as syntax: its encoding is two cells, the first its opcode in the
opcode map (30_encoding.md R42, R45), the one its assembler line names (R55). -/

namespace Sys2Proof.Laws.EncodeShape

/-- Two cells, an opcode from 0 to 7, and the same two cells from the mnemonic and the operand. -/
def Statement (i : Instr) : Prop :=
  encode i = [i.opcode, i.operand] ∧ i.opcode.toNat < 8 ∧
    assembleLine i.mnemonic i.operand.toNat = some (encode i)

theorem of_mnemonic {i : Instr} (hm : opcodeOfMnemonic i.mnemonic = some i.opcode) : Statement i := by
  refine ⟨rfl, i.opcode_lt, ?_⟩
  simp [assembleLine, hm, encode, i.operand.isLt]

theorem adv (x : Combo) : Statement (.adv x) := of_mnemonic rfl
theorem bxl (x : Byte) : Statement (.bxl x) := of_mnemonic rfl
theorem bst (x : Combo) : Statement (.bst x) := of_mnemonic rfl
theorem jnz (x : Byte) : Statement (.jnz x) := of_mnemonic rfl
theorem bxc (x : Byte) : Statement (.bxc x) := of_mnemonic rfl
theorem out (x : Combo) : Statement (.out x) := of_mnemonic rfl
theorem bdv (x : Combo) : Statement (.bdv x) := of_mnemonic rfl
theorem cdv (x : Combo) : Statement (.cdv x) := of_mnemonic rfl

end Sys2Proof.Laws.EncodeShape
end

