-- ==== Sys2Proof/Laws/Step.lean ====
section
/-! SUPPORT. What one step can do. -/

namespace Sys2Proof.Machine

theorem step_running {s : State} (h : s.runState = .running) : step s = runningStep s := by
  simp [step, h]

theorem step_halted {s : State} (h : s.runState = .halted) : step s = .refused .runHalted := by
  simp [step, h, haltedStop]

theorem step_faulted {s : State} (h : s.runState = .faulted) :
    step s = .fault (.runFaulted s.faultCause s.faultIp s.faultByte0 s.faultByte1) := by
  simp [step, h, faultedStop]

/-- All a step that answers a next state can have done: it was RUNNING, and it halted, took one of the two
fetch faults, or executed the instruction on the tape (40_execution.md R57 to R61). -/
inductive Stepped (s t : State) : Prop where
  | halted (hp : s.len ≤ s.pc) (h : t = halt s)
  | truncated (hp : s.pc + 1 = s.len)
      (h : t = takeFault .malformedProgram (tapeByte s.tape s.pc) none s)
  | badOpcode (hp : s.pc + 1 < s.len) (ho : 8 ≤ (tapeByte s.tape s.pc).toNat)
      (h : t = takeFault .invalidOpcode (tapeByte s.tape s.pc)
        (some (tapeByte s.tape (s.pc + 1))) s)
  | executed (i : Instr) (hp : s.pc + 1 < s.len)
      (hd : decodePair (tapeByte s.tape s.pc) (tapeByte s.tape (s.pc + 1)) = some i)
      (h : exec i s = .next t)

theorem step_next {s t : State} (h : step s = .next t) : s.runState = .running ∧ Stepped s t := by
  have hr : s.runState = .running := by
    cases hs : s.runState with
    | running => rfl
    | halted => simp [step_halted hs] at h
    | faulted => simp [step_faulted hs] at h
  refine ⟨hr, ?_⟩
  rw [step_running hr, runningStep] at h
  by_cases hp : s.len ≤ s.pc
  · rw [fetchCells_past hp] at h
    exact .halted hp (by cases h; rfl)
  · by_cases hq : s.pc + 1 = s.len
    · rw [fetchCells_tail hq] at h
      exact .truncated hq (by cases h; rfl)
    · have hlt : s.pc + 1 < s.len := by omega
      rw [fetchCells_pair hlt] at h
      cases hd : decodePair (tapeByte s.tape s.pc) (tapeByte s.tape (s.pc + 1)) with
      | none =>
        rw [decode_pair_of_none hd] at h
        exact .badOpcode hlt (decodePair_eq_none_iff.1 hd) (by cases h; rfl)
      | some i =>
        rw [decode_pair_of_some hd] at h
        exact .executed i hlt hd h

end Sys2Proof.Machine
end

