-- ==== Sys2Proof/Laws/Run.lean ====
section
/-! SUPPORT. Runs of several steps, taken apart and put together. -/

namespace Sys2Proof.Machine

theorem run_zero (s : State) : Host.Core.run core 0 s = .next s := rfl

/-- The first step of a run, where there is one. -/
theorem run_succ_of_next {s t : State} (h : step s = .next t) (n : Nat) :
    Host.Core.run core (n + 1) s = Host.Core.run core n t := by
  have h' : core.step s = .next t := h
  simp only [Host.Core.run, h']

theorem run_succ_of_fault {s : State} {r : Fault} (h : step s = .fault r) (n : Nat) :
    Host.Core.run core (n + 1) s = .fault r := by
  have h' : core.step s = .fault r := h
  simp only [Host.Core.run, h']

theorem run_succ_of_refused {s : State} {r : Refusal} (h : step s = .refused r) (n : Nat) :
    Host.Core.run core (n + 1) s = .refused r := by
  have h' : core.step s = .refused r := h
  simp only [Host.Core.run, h']

theorem reaches_zero {s t : State} : s.reaches 0 t ↔ s = t := by
  constructor
  · intro h
    cases h
    rfl
  · rintro rfl
    rfl

/-- A run of `n + 1` steps is a step and a run of `n`. -/
theorem reaches_succ {n : Nat} {s t : State} :
    s.reaches (n + 1) t ↔ ∃ u, step s = .next u ∧ u.reaches n t := by
  unfold State.reaches
  cases h : step s with
  | next u => rw [run_succ_of_next h]; simp
  | fault r => rw [run_succ_of_fault h]; simp
  | refused r => rw [run_succ_of_refused h]; simp

/-- Two runs in a row are one. -/
theorem reaches_trans {m n : Nat} {s t u : State} (h₁ : s.reaches m t) (h₂ : t.reaches n u) :
    s.reaches (m + n) u := by
  induction m generalizing s with
  | zero =>
    rw [reaches_zero] at h₁
    subst h₁
    simpa using h₂
  | succ m ih =>
    obtain ⟨v, hv, h⟩ := reaches_succ.1 h₁
    rw [show m + 1 + n = (m + n) + 1 by omega]
    exact reaches_succ.2 ⟨v, hv, ih h⟩

/-- A run passes through a state after each number of steps. -/
theorem reaches_split {m n : Nat} {s u : State} (h : s.reaches (m + n) u) :
    ∃ t, s.reaches m t ∧ t.reaches n u := by
  induction m generalizing s with
  | zero => exact ⟨s, rfl, by simpa using h⟩
  | succ m ih =>
    rw [show m + 1 + n = (m + n) + 1 by omega] at h
    obtain ⟨v, hv, h⟩ := reaches_succ.1 h
    obtain ⟨t, h₁, h₂⟩ := ih h
    exact ⟨t, reaches_succ.2 ⟨v, hv, h₁⟩, h₂⟩

/-- What every step keeps, every run keeps. -/
theorem reaches_induction {P : State → Prop} (hstep : ∀ s t, P s → step s = .next t → P t) {n : Nat}
    {s t : State} (hs : P s) (h : s.reaches n t) : P t := by
  induction n generalizing s with
  | zero =>
    rw [reaches_zero] at h
    exact h ▸ hs
  | succ n ih =>
    obtain ⟨u, hu, h⟩ := reaches_succ.1 h
    exact ih (hstep s u hs hu) h

end Sys2Proof.Machine
end

