-- ==== Sys2Proof/Tests/Slice0.lean ====
section
/-! SUPPORT. Tests of single steps against the vectors of 95_test_vectors.md and the examples of the
rules, and a witness for the hypotheses of each statement. -/

namespace Sys2Proof.Machine.Tests

/-- A launched state: a program and the three registers. -/
abbrev start (program : List Byte) (a b c : Word) : State := launched program a b c

/-- The state after one step, where there is one. -/
def after (s : State) : Option State :=
  match step s with
  | .next t => some t
  | _ => none

/-- The state after an instruction, where there is one. -/
def afterExec (i : Instr) (s : State) : Option State :=
  match exec i s with
  | .next t => some t
  | _ => none

/-- A build for the tests: programs of up to 14 cells, an instruction pointer of 8 bits. -/
def smallBuild : Config.Build := { progLenMax := 14, ipWidth := 8 }

/-! Well-formedness: an ill-formed term for each check. -/

theorem test_wf_combo_refuses : (Combo.invalid 6).wf = false := by decide
theorem test_wf_adv_refuses : (Instr.adv (.invalid 0)).wf = false := by decide
theorem test_wf_bst_refuses : (Instr.bst (.invalid 3)).wf = false := by decide
theorem test_wf_out_refuses : (Instr.out (.invalid 4)).wf = false := by decide
theorem test_wf_bdv_refuses : (Instr.bdv (.invalid 5)).wf = false := by decide
theorem test_wf_cdv_refuses : (Instr.cdv (.invalid 6)).wf = false := by decide
theorem test_wf_memory_refuses :
    ¬ Memory.wf [(1, 5), (0, 5)] ∧ ¬ Memory.wf [(0, 5), (0, 6)] ∧ ¬ Memory.wf [(0, 0)] := by decide
theorem test_wf_build_refuses :
    Config.Build.wf { progLenMax := 256, ipWidth := 8 } = false := by decide

/-! Decoding: one word per constructor, its bits written out from 30_encoding.md R43 and R45. -/

theorem test_decode_adv : decodeTableWord 16 0b0000000000000001 = some (.adv (.constant 1)) := by
  decide
theorem test_decode_bxl : decodeTableWord 16 0b0000000111001000 = some (.bxl 200) := by decide
theorem test_decode_bst : decodeTableWord 16 0b0000001000000110 = some (.bst (.register .c)) := by
  decide
theorem test_decode_jnz : decodeTableWord 16 0b0000001111111111 = some (.jnz 255) := by decide
theorem test_decode_bxc : decodeTableWord 16 0b0000010000000111 = some (.bxc 7) := by decide
theorem test_decode_out : decodeTableWord 16 0b0000010100000100 = some (.out (.register .a)) := by
  decide
theorem test_decode_bdv : decodeTableWord 16 0b0000011000000101 = some (.bdv (.register .b)) := by
  decide
theorem test_decode_cdv : decodeTableWord 16 0b0000011100001000 = some (.cdv (.invalid 8)) := by
  decide
theorem test_decode_refuses_opcode_8 : decodeTableWord 16 0b0000100000000111 = none := by decide
theorem test_decode_refuses_opcode_255 : decodeTableWord 16 0b1111111100000000 = none := by decide

/-! The assembler notation (30_encoding.md R55): program P1 of 95_test_vectors.md section L3. -/

theorem test_assemble_p1 :
    assemble [.bst (.register .a), .bxl 3, .cdv (.register .b), .bxc 0, .out (.register .b),
      .adv (.constant 3), .jnz 0] = [2, 4, 1, 3, 7, 5, 4, 0, 5, 5, 0, 3, 3, 0] := by decide
theorem test_assembleLine_out_4 : assembleLine "out" 4 = some [5, 4] := by decide
theorem test_assembleLine_refuses : assembleLine "out" 256 = none ∧ assembleLine "nop" 0 = none := by
  decide

/-! Single steps. -/

/-- V1. -/
theorem test_adv_halves :
    (after (start [0, 1] 2024 0 0)).map (fun t => (t.a, t.pc)) = some (1012, 2) := by decide
/-- V7 and V8: the shift by the width, and by one less. -/
theorem test_adv_saturates :
    (after (start [0, 5] (2 ^ 127 + 1) 128 0)).map State.a = some 0 ∧
    (after (start [0, 5] (2 ^ 127 + 1) 127 0)).map State.a = some 1 := by decide +kernel
/-- V3: combo 0 copies A. -/
theorem test_bdv_copies :
    (after (start [6, 0] 100 5 0)).map (fun t => (t.a, t.b)) = some (100, 100) := by decide
/-- V5: the shift amount is the old B. -/
theorem test_bdv_old_b :
    (after (start [6, 5] 64 3 0)).map (fun t => (t.a, t.b)) = some (64, 8) := by decide
/-- V6: the shift amount is the old C. -/
theorem test_cdv_old_c :
    (after (start [7, 6] 10 0 1)).map (fun t => (t.a, t.c)) = some (10, 5) := by decide
/-- V9b: operand 8 faults, and C is left. -/
theorem test_cdv_faults :
    (after (start [7, 8] 5 0 0)).map faultReport = some (some (.invalidOperand, 0, 7, some 8)) ∧
    (after (start [7, 8] 5 0 0)).map (fun t => (t.c, t.pc)) = some (0, 0) := by decide
/-- V10: the first of its two steps. -/
theorem test_bxl_300 : (after (start [1, 200, 1, 200] 0 300 0)).map State.b = some 484 := by decide
/-- V11: the high bits of B are kept. -/
theorem test_bxl_keeps_high_bits :
    (after (start [1, 3] 0 (2 ^ 100 + 5) 0)).map State.b = some (2 ^ 100 + 6) := by decide +kernel
/-- V14: bst of B itself. -/
theorem test_bst_own_b : (after (start [2, 5] 0 (2 ^ 127 + 13) 0)).map State.b = some 5 := by decide +kernel
/-- V16: operand 7 faults, and B is left. -/
theorem test_bst_faults :
    (after (start [2, 7] 0 77 0)).map faultReport = some (some (.invalidOperand, 0, 2, some 7)) ∧
    (after (start [2, 7] 0 77 0)).map State.b = some 77 := by decide
/-- S5. -/
theorem test_bxc_scenario : (after (start [4, 0] 0 2024 43690)).map State.b = some 44354 := by decide
/-- V17: operand 7 is ignored. -/
theorem test_bxc_ignores_operand :
    (after (start [4, 7] 0 5 3)).map (fun t => (t.b, t.runState)) = some (6, .running) := by decide
/-- V19: not taken. -/
theorem test_jnz_falls_through : (after (start [3, 7] 0 0 0)).map State.pc = some 2 := by decide
/-- V21: taken, to an odd index. -/
theorem test_jnz_odd_target : (after (start [3, 3, 0, 5, 4] 1 0 0)).map State.pc = some 3 := by decide
/-- V26. -/
theorem test_out_largest_b :
    (after (start [5, 5] 0 (2 ^ 128 - 1) 0)).map (fun t => (t.out, t.b)) =
      some ([7], 2 ^ 128 - 1) := by decide +kernel
/-- The second step of V27: the output before it is kept, and nothing is appended. -/
theorem test_out_faults :
    let s := { start [5, 4, 5, 7] 13 0 0 with pc := 2, out := [5] }
    (after s).map faultReport = some (some (.invalidOperand, 2, 5, some 7)) ∧
      (after s).map State.out = some [5] := by decide
/-- V29: a bad opcode wins over a bad operand. -/
theorem test_fault_priority :
    (after (start [8, 7] 0 0 0)).map faultReport =
      some (some (.invalidOpcode, 0, 8, some 7)) := by decide
/-- V32: a truncated fetch wins over a bad opcode. -/
theorem test_truncated_fetch :
    (after (start [9] 0 0 0)).map faultReport =
      some (some (.malformedProgram, 0, 9, none)) := by decide
/-- V28: an empty tape halts, the registers as launched. -/
theorem test_empty_tape_halts :
    (after (start [] 1 2 3)).map (fun t => (runResult t, finalRegisters t)) =
      some (some [], some (1, 2, 3)) := by decide
/-- 40_execution.md R57: no step from HALTED or FAULTED. -/
theorem test_no_step_after_end :
    after { State.reset with runState := .halted } = none ∧
    after { State.reset with runState := .faulted } = none := by decide
/-- The numeric codes of 10_state.md R18 and 60_exceptions.md R86. -/
theorem test_status_codes :
    [RunState.running, .halted, .faulted].map RunState.code = [0, 1, 2] ∧
    [FaultCause.noFault, .malformedProgram, .invalidOpcode, .invalidOperand].map FaultCause.code =
      [0, 1, 2, 3] := by decide
/-- A placed word is the first instruction after reset: 0x0103 is `bxl 3`. -/
theorem test_withFetchWord_runs :
    (after (State.reset.withFetchWord 16 0x0103)).map (fun t => (t.b, t.pc)) = some (3, 2) := by
  decide

/-! Witnesses: states and operands that meet each statement's hypotheses, clause by clause. -/

theorem witness_EveryPairHasOneVerdict :
    8 ≤ (8 : Byte).toNat ∧ 8 ≤ (255 : Byte).toNat ∧ (0 : Byte).toNat < 8 ∧ (7 : Byte).toNat < 8 ∧
    (Instr.cdv (.invalid 255)).wf = true ∧ encode (.cdv (.invalid 255)) = [7, 255] := by decide

theorem witness_DecodeEncodeRoundTrip :
    (Instr.adv (.constant 3)).wf = true ∧ (Instr.out (.register .c)).wf = true ∧
    (Instr.cdv (.invalid 7)).wf = true ∧ (Instr.bxc 255).wf = true := by decide

theorem witness_AssembledProgramReadsBack :
    (∀ j ∈ [Instr.adv (.constant 1), .out (.register .a), .jnz 0], j.wf = true) ∧
    [Instr.adv (.constant 1), .out (.register .a), .jnz 0][2]? = some (.jnz 0) := by decide

theorem witness_PlacedWordIsExecuted :
    (start [1, 2] 0 0 0).tape.wf ∧ 0x07FF < 2 ^ 16 ∧
    decodeTableWord 16 0x07FF = some (.cdv (.invalid 255)) := by decide

theorem witness_ComboTable :
    (0 : Byte).toNat ≤ 3 ∧ (3 : Byte).toNat ≤ 3 ∧ (4 : Byte).toNat = 4 ∧ (5 : Byte).toNat = 5 ∧
    (6 : Byte).toNat = 6 ∧ 7 ≤ (7 : Byte).toNat ∧ 7 ≤ (255 : Byte).toNat := by decide

theorem witness_InvalidOperandRecord :
    (decodePair 7 255 = some (.cdv (.invalid 255)) ∧ 7 ≤ (255 : Byte).toNat ∧
      (7 : Byte).toNat ∈ [0, 2, 5, 6, 7]) ∧
    (decodePair 4 7 = some (.bxc 7) ∧ 7 ≤ (7 : Byte).toNat ∧ (4 : Byte).toNat ∈ [1, 3, 4]) := by
  decide

theorem witness_RightShiftSaturates :
    (127 : Word).toNat < 128 ∧ 128 ≤ (128 : Word).toNat ∧ 128 ≤ (2 ^ 128 - 1 : Word).toNat := by
  decide +kernel

theorem witness_XorIsBitwise : 0 < 128 ∧ 127 < 128 := by decide

theorem witness_ModEightIsLowBits : 0 < 3 ∧ 2 < 3 := by decide

theorem witness_AdvShiftsIntoA :
    combo (Combo.ofByte 3) (start [] 9 0 0) = some 3 ∧
    (combo (Combo.ofByte 5) (start [] 9 128 0) = some 128 ∧ 128 ≤ (128 : Word).toNat) ∧
    (combo (Combo.ofByte 6) (start [] 0 0 7) = some 7 ∧ (start [] 0 0 7).a = 0) ∧
    7 ≤ (7 : Byte).toNat ∧ (0 : Byte).toNat = 0 ∧ (4 : Byte).toNat = 4 ∧
    ((1 : Byte).toNat = 1 ∧ (start [] 2024 0 0).a = 2024) := by decide

theorem witness_BdvShiftsIntoB :
    combo (Combo.ofByte 6) (start [] 9 0 2) = some 2 ∧
    (combo (Combo.ofByte 6) (start [] 9 0 128) = some 128 ∧ 128 ≤ (128 : Word).toNat) ∧
    7 ≤ (255 : Byte).toNat ∧ (0 : Byte).toNat = 0 ∧
    ((5 : Byte).toNat = 5 ∧ (start [] 64 3 0).a = 64 ∧ (start [] 64 3 0).b = 3) := by decide

theorem witness_CdvShiftsIntoC :
    combo (Combo.ofByte 4) (start [] 9 0 0) = some 9 ∧
    (combo (Combo.ofByte 5) (start [] 9 128 0) = some 128 ∧ 128 ≤ (128 : Word).toNat) ∧
    7 ≤ (7 : Byte).toNat ∧ (0 : Byte).toNat = 0 ∧
    ((6 : Byte).toNat = 6 ∧ (start [] 10 0 1).a = 10 ∧ (start [] 10 0 1).c = 1) := by decide

theorem witness_BxlXorsLiteral :
    8 ≤ 127 ∧ (0 : Byte).toNat = 0 ∧
    ((3 : Byte).toNat = 3 ∧ (start [] 0 (2 ^ 100 + 5) 0).b.toNat = 2 ^ 100 + 5) ∧
    ((7 : Byte).toNat = 7 ∧ (start [] 0 29 0).b.toNat = 29) := by decide +kernel

theorem witness_BstTakesModEight :
    combo (Combo.ofByte 6) (start [] 0 0 8) = some 8 ∧ 3 ≤ 127 ∧ 7 ≤ (7 : Byte).toNat ∧
    (3 : Byte).toNat ≤ 3 ∧ (5 : Byte).toNat = 5 ∧ (4 : Byte).toNat = 4 ∧
    ((6 : Byte).toNat = 6 ∧ (start [] 0 0 9).c.toNat = 9) := by decide

theorem witness_BxcXorsRegisters :
    127 < 128 ∧ (start [] 0 12 12).b = (start [] 0 12 12).c ∧ (start [] 0 12 0).c = 0 ∧
    ((start [] 0 2024 43690).b.toNat = 2024 ∧ (start [] 0 2024 43690).c.toNat = 43690) := by decide

/-- A taken jnz to an index past a tape of 5 cells, to its last cell, to an odd index before it, and to
itself; the example's state. -/
theorem witness_JnzJumps :
    (start [3, 3, 0, 5, 4] 1 0 0).a ≠ 0 ∧ (start [3, 3, 0, 5, 4] 0 0 0).a = 0 ∧
    (start [3, 3, 0, 5, 4] 1 0 0).runState = .running ∧
    (afterExec (.jnz 5) (start [3, 3, 0, 5, 4] 1 0 0)).map (fun t => decide (t.len ≤ 5)) =
      some true ∧
    (afterExec (.jnz 4) (start [3, 3, 0, 5, 4] 1 0 0)).map (fun t => decide (4 + 1 = t.len)) =
      some true ∧
    (afterExec (.jnz 3) (start [3, 3, 0, 5, 4] 1 0 0)).map (fun t => decide (3 + 1 < t.len)) =
      some true ∧
    (0 : Byte).toNat = (start [3, 0] 1 0 0).pc ∧
    ({ start [] 1 0 0 with pc := 4 } : State).pc = 4 := by decide

theorem witness_OutAppendsModEight :
    combo (Combo.ofByte 4) (start [] 9 0 0) = some 9 ∧ 7 ≤ (7 : Byte).toNat ∧ (3 : Byte).toNat ≤ 3 ∧
    ((5 : Byte).toNat = 5 ∧ (start [] 0 (2 ^ 128 - 1) 0).b.toNat = 2 ^ 128 - 1) ∧
    ((4 : Byte).toNat = 4 ∧ (start [] 10 0 0).a.toNat = 10) := by decide +kernel

theorem witness_ExecutableWordsComplete :
    ((7 : Byte).toNat < 8 ∧ (6 : Byte).toNat < 7) ∧
    ((3 : Byte).toNat < 8 ∧ (3 : Byte).toNat ∈ [1, 3, 4]) := by decide

/-- Each combo instruction on an operand that resolves, and adv on one that does not. -/
theorem witness_ComboInstructionFrame :
    ([Instr.adv (.register .b), .bst (.register .b), .out (.register .b), .bdv (.register .b),
      .cdv (.register .b)].all fun i => (afterExec i (start [] 9 1 0)).isSome) = true ∧
    combo (.register .b) (start [] 9 1 0) = some 1 ∧
    (afterExec (.adv (.invalid 7)) (start [] 9 1 0)).isSome = true ∧
    combo (.invalid 7) (start [] 9 1 0) = none := by decide

theorem witness_LiteralInstructionFrame :
    ([Instr.bxl 255, .bxc 255, .jnz 255].all fun i => (afterExec i (start [] 9 1 2)).isSome) =
      true := by decide

/-- A step that changes A, one that changes B, one that changes C. -/
theorem witness_RegisterWriters :
    (after (start [0, 1] 8 0 0)).map State.a = some 4 ∧ (start [0, 1] 8 0 0).a ≠ 4 ∧
    (after (start [2, 3] 8 0 0)).map State.b = some 3 ∧ (start [2, 3] 8 0 0).b ≠ 3 ∧
    (after (start [7, 1] 8 0 0)).map State.c = some 4 ∧ (start [7, 1] 8 0 0).c ≠ 4 := by decide

theorem witness_StepRunsDecodedInstruction :
    let s := { start [3, 3, 0, 5, 4] 1 0 0 with pc := 3 }
    s.runState = .running ∧ memRead s s.pc = some 5 ∧ memRead s (s.pc + 1) = some 4 ∧
      decode [5, 4] = .ok (.out (.register .a), []) :=
  ⟨rfl, rfl, rfl, rfl⟩

theorem witness_InvalidOpcodeRecord :
    let s := start [8, 7] 0 0 0
    s.runState = .running ∧ memRead s s.pc = some 8 ∧ memRead s (s.pc + 1) = some 7 ∧
      8 ≤ (8 : Byte).toNat := by decide

theorem witness_TruncatedFetchFaults :
    ((start [9] 0 0 0).runState = .running ∧ (start [9] 0 0 0).pc + 1 = (start [9] 0 0 0).len) ∧
    (start [] 0 0 0).len ≤ (start [] 0 0 0).pc ∧
    (start [9, 9] 0 0 0).pc + 1 < (start [9, 9] 0 0 0).len := by decide

theorem witness_HaltAtEnd :
    let s := { start [5, 0] 0 0 0 with pc := 2 }
    s.runState = .running ∧ s.len ≤ s.pc := by decide

theorem witness_StepDoesOneOfThree :
    ({ State.reset with runState := .faulted } : State).runState ≠ .running ∧
    State.reset.runState = .running := by decide

theorem witness_EndsShowAtTheInterface :
    ({ State.reset with runState := .halted } : State).runState = .halted ∧
    ({ State.reset with runState := .faulted } : State).runState = .faulted := by decide

/-- One step of each kind: halt, the three faults, an executed instruction. -/
theorem witness_FaultPriority :
    ([start [] 0 0 0, start [9] 0 0 0, start [8, 7] 0 0 0, start [0, 7] 0 0 0,
      start [1, 7] 0 0 0].map fun s => (after s).map fun t => (t.runState, t.faultCause)) =
    [some (.halted, .noFault), some (.faulted, .malformedProgram), some (.faulted, .invalidOpcode),
      some (.faulted, .invalidOperand), some (.running, .noFault)] := by decide

theorem witness_FaultEntryWritesRecordOnly :
    ([start [9] 0 0 0, start [8, 7] 0 0 0].map fun s => (after s).map fun t =>
      (t.runState, t.faultCause)) =
    [some (.faulted, .malformedProgram), some (.faulted, .invalidOpcode)] := by decide

/-- A taken jnz, one not taken, a fault, a halt. -/
theorem witness_AdvanceRule :
    ([start [3, 255] 1 0 0, start [3, 255] 0 0 0, start [8, 7] 1 0 0, start [] 1 0 0].map
      fun s => (after s).map fun t => (t.runState, memRead s s.pc, decide (s.a ≠ 0))) =
    [some (.running, some 3, true), some (.running, some 3, false), some (.faulted, some 8, true),
      some (.halted, none, true)] := by decide

theorem witness_TapeIsImmutable :
    ∃ t, (start [5, 1] 0 0 0).reaches 1 t := ⟨_, rfl⟩

theorem witness_OutputOnlyGrows :
    (∃ t, (start [5, 1] 0 0 0).reaches 1 t) ∧
    (after (start [5, 1] 0 0 0)).map State.out = some [1] ∧ (start [5, 1] 0 0 0).out ≠ [1] :=
  ⟨⟨_, rfl⟩, by decide, by decide⟩

theorem witness_RunStaysEnded :
    ∃ t, State.reset.reaches 1 t ∧ t.runState ≠ .running := ⟨_, rfl, by decide⟩

theorem witness_OutputAndRecordAreNotRead :
    (∃ t, step (start [5, 1] 0 0 0) = .next t) ∧
    ∃ t, step (start [5, 7] 0 0 0) = .next t ∧ t.runState = .faulted := ⟨⟨_, rfl⟩, _, rfl, rfl⟩

theorem witness_SelfJumpNeverEnds :
    let s := start [3, 0] 1 0 0
    s.runState = .running ∧ s.a ≠ 0 ∧ memRead s s.pc = some 3 ∧ memRead s (s.pc + 1) = some 0 ∧
      (0 : Byte).toNat = s.pc := by decide

theorem witness_HaltsIffPointerPassesEnd :
    (start [] 0 0 0).runState = .running ∧
    (∃ t, (start [] 0 0 0).reaches 1 t ∧ t.runState = .halted) ∧
    ∃ t, (start [] 0 0 0).reaches 0 t ∧ t.runState = .running ∧ t.len ≤ t.pc :=
  ⟨rfl, ⟨_, rfl, rfl⟩, _, rfl, rfl, Nat.le_refl 0⟩

/-- A taken jnz to an even literal on a tape of even length. -/
theorem witness_EvenPointerKept :
    let s := start [3, 254] 1 0 0
    s.len % 2 = 0 ∧ s.pc % 2 = 0 ∧ memRead s s.pc = some 3 ∧ s.a ≠ 0 ∧
      memRead s (s.pc + 1) = some 254 ∧ (254 : Byte).toNat % 2 = 0 ∧
      (after s).map State.pc = some 254 := by decide

theorem witness_StepKeepsInvariant :
    (start [0, 1, 3, 0] 5 0 0).Inv ∧ ∃ t, step (start [0, 1, 3, 0] 5 0 0) = .next t :=
  ⟨⟨⟨by decide, by decide⟩, by decide, by decide, rfl, rfl, rfl, rfl⟩, _, rfl⟩

theorem witness_RefinesUnboundedPseudocode :
    (∃ t, step (start [6, 5] 64 3 0) = .next t) ∧
    ∀ t, step { State.reset with runState := .halted } ≠ .next t :=
  ⟨⟨_, rfl⟩, fun _ h => by cases h⟩

theorem witness_LaunchWritesEverything :
    2 ^ 128 - 1 < 2 ^ 128 ∧ (∀ v ∈ [0, 255, 5, 4], v < 256) ∧
    [0, 255, 5, 4].length ≤ smallBuild.progLenMax := by decide

theorem witness_LaunchOutsidePremisesRefused :
    2 ^ 128 ≤ 2 ^ 128 ∧ (∃ v ∈ [0, 256], 256 ≤ v) ∧
    ({ progLenMax := 1, ipWidth := 8 } : Config.Build).progLenMax < [0, 1].length := by decide

theorem witness_PointerFitsBuild :
    smallBuild.wf = true ∧ launch smallBuild [5, 1] 0 0 0 = .next (start [5, 1] 0 0 0) ∧
    ∃ t, (start [5, 1] 0 0 0).reaches 1 t := ⟨by decide, rfl, _, rfl⟩

theorem witness_ResultHasOneElementPerOut :
    launch smallBuild [5, 1] 0 0 0 = .next (start [5, 1] 0 0 0) ∧
    ∃ t, (start [5, 1] 0 0 0).reaches 2 t ∧ t.runState = .halted := ⟨rfl, _, rfl, rfl⟩

theorem witness_HostView :
    State.reset.runState = .running ∧
    ({ State.reset with runState := .halted } : State).runState = .halted ∧
    ({ State.reset with runState := .faulted } : State).runState = .faulted := by decide

end Sys2Proof.Machine.Tests
end

section
/-! The tape is read-only to the core (20_memory.md R25): no effect, step or run writes the cells or their
number. -/

namespace Sys2Proof.Machine

/-- Two states with the same cells and the same length read the same tape. -/
theorem sameTape_of_eq {s t : State} (ht : t.tape = s.tape) (hl : t.len = s.len) : s.sameTape t :=
  ⟨hl, memRead_congr ht hl⟩

theorem sameTape_refl (s : State) : s.sameTape s := sameTape_of_eq rfl rfl

theorem sameTape_trans {s t u : State} (hst : s.sameTape t) (htu : t.sameTape u) : s.sameTape u := by
  obtain ⟨hlen, hcell⟩ := hst
  obtain ⟨hlen', hcell'⟩ := htu
  exact ⟨hlen'.trans hlen, fun i => (hcell' i).trans (hcell i)⟩

/-- Registers, `pc`, the output and the fault record are all an instruction writes (40_execution.md R64). -/
theorem Effect.sameTape {i : Instr} {s t : State} (he : Effect i s t) : s.sameTape t := by
  cases he with
  | register r v h => subst h; exact sameTape_of_eq (writeReg_tape r v s) (writeReg_len r v s)
  | output v hi h => subst h; exact sameTape_of_eq (outAppend_tape v s) (outAppend_len v s)
  | jump x hi ha h => subst h; exact sameTape_of_eq (jumpTo_tape ..) (jumpTo_len ..)
  | fallThrough x hi ha h => subst h; exact sameTape_of_eq (advance_tape ..) (advance_len ..)
  | invalidOperand b hb ho hx h => subst h; exact sameTape_of_eq (takeFault_tape ..) (takeFault_len ..)

theorem exec_sameTape {i : Instr} {s t : State} (h : exec i s = .next t) : s.sameTape t :=
  (effect_of_exec h).sameTape

/-- The halt and the two fetch faults leave the tape too (40_execution.md R58, 60_exceptions.md R91). -/
theorem step_sameTape {s t : State} (h : step s = .next t) : s.sameTape t := by
  cases (step_next h).2 with
  | halted hp h => subst h; exact sameTape_of_eq (halt_tape s) (halt_len s)
  | truncated hp h => subst h; exact sameTape_of_eq (takeFault_tape ..) (takeFault_len ..)
  | badOpcode hp ho h => subst h; exact sameTape_of_eq (takeFault_tape ..) (takeFault_len ..)
  | executed i hp hd h => exact exec_sameTape h

/-- Settles O33: reading the starting tape is kept by every step, so by every run. -/
theorem tapeIsImmutable : Obligations.TapeIsImmutable := by
  intro n s t hreach
  exact reaches_induction (P := s.sameTape)
    (fun _ _ hsame hstep => sameTape_trans hsame (step_sameTape hstep)) (sameTape_refl s) hreach

end Sys2Proof.Machine
end

section
/-! The words of the tape (30_encoding.md): the opcode map, the combo table, and the opcodes that select no
instruction, with the fault they take (60_exceptions.md R88). -/

namespace Sys2Proof

/-- The operand bytes 0 to 3 name themselves (30_encoding.md R49). -/
theorem Combo.ofByte_of_le_three {x : Byte} (h : x.toNat ≤ 3) :
    Combo.ofByte x = .constant (x.setWidth 2) := by
  have hx : (x.setWidth 2).setWidth 8 = x := by bv_omega
  simpa [Combo.toByte, hx] using Combo.ofByte_constant (x.setWidth 2)

theorem Combo.ofByte_of_eq_four {x : Byte} (h : x.toNat = 4) : Combo.ofByte x = .register .a := by
  simp [Combo.ofByte, h]

theorem Combo.ofByte_of_eq_five {x : Byte} (h : x.toNat = 5) : Combo.ofByte x = .register .b := by
  simp [Combo.ofByte, h]

theorem Combo.ofByte_of_eq_six {x : Byte} (h : x.toNat = 6) : Combo.ofByte x = .register .c := by
  simp [Combo.ofByte, h]

/-- Settles O1: each word selects its row of the opcode map, and opcode 8 selects none. -/
theorem specWordsDecode : Obligations.SpecWordsDecode :=
  ⟨decode_pair_of_some rfl [], decode_pair_of_some rfl [], decode_pair_of_some rfl [],
    decode_pair_of_some rfl [], decode_pair_of_some rfl [], decode_pair_of_some rfl [],
    decode_pair_of_some rfl [], decode_pair_of_some rfl [], decode_pair_of_none rfl []⟩

end Sys2Proof

namespace Sys2Proof.Machine

/-- The operand bytes 0 to 3 resolve to themselves, widened with zero bits (30_encoding.md R49). -/
theorem combo_ofByte_of_le_three {x : Byte} (h : x.toNat ≤ 3) (s : State) :
    ∃ v, combo (Combo.ofByte x) s = some v ∧ v.toNat = x.toNat := by
  refine ⟨(x.setWidth 2).setWidth 128, by rw [Combo.ofByte_of_le_three h, combo], ?_⟩
  simp only [BitVec.toNat_setWidth]
  omega

/-- The operand bytes 7 to 255 do not resolve (30_encoding.md R50, R51). -/
theorem combo_ofByte_of_ge_seven {x : Byte} (h : 7 ≤ x.toNat) (s : State) :
    combo (Combo.ofByte x) s = none :=
  combo_eq_none_iff.2 ⟨x, Combo.ofByte_invalid h⟩

/-- On an operand byte of 7 or more a combo instruction takes InvalidOperand with that byte in the record
and does nothing else (60_exceptions.md R89, R91). -/
theorem withCombo_ofByte_of_ge_seven {x : Byte} (h : 7 ≤ x.toNat) (op : Byte) (s : State)
    (effect : Word → State) :
    withCombo op (Combo.ofByte x) s effect = .next (takeFault .invalidOperand op (some x) s) := by
  rw [withCombo_unresolved (combo_ofByte_of_ge_seven h s), Combo.toByte_ofByte]

/-- Settles O6, row by row of the table. -/
theorem comboTable : Obligations.ComboTable := by
  intro s x
  refine ⟨fun h => combo_ofByte_of_le_three h s, fun h => ?_, fun h => ?_, fun h => ?_, fun h =>
    ⟨combo_ofByte_of_ge_seven h s, fun op => withCombo_ofByte_of_ge_seven h op s⟩⟩
  · rw [Combo.ofByte_of_eq_four h, combo, readReg_a]
  · rw [Combo.ofByte_of_eq_five h, combo, readReg_b]
  · rw [Combo.ofByte_of_eq_six h, combo, readReg_c]

/-- The fetch finds the two cells that `MemRead` finds at `pc` and `pc + 1` (20_memory.md R27). -/
theorem fetchCells_of_memRead {s : State} {op x : Byte} (hop : memRead s s.pc = some op)
    (hx : memRead s (s.pc + 1) = some x) : fetchCells s = [op, x] := by
  simp [fetchCells, hop, hx]

/-- A step on two cells that select no instruction takes InvalidOpcode (40_execution.md R60). -/
theorem step_of_decodePair_none {s : State} {op x : Byte} (hr : s.runState = .running)
    (hf : fetchCells s = [op, x]) (hd : decodePair op x = none) :
    step s = .next (takeFault .invalidOpcode op (some x) s) := by
  rw [step_running hr, runningStep, hf, decode_pair_of_none hd]

/-- Settles O25: an opcode of 8 or more selects nothing, so the step takes the fault. -/
theorem invalidOpcodeRecord : Obligations.InvalidOpcodeRecord := by
  intro s op x hr hop hx h8
  have hd : decodePair op x = none := decodePair_eq_none_iff.2 h8
  exact ⟨hd, step_of_decodePair_none hr (fetchCells_of_memRead hop hx) hd⟩

end Sys2Proof.Machine
end

section
/-! The data operations of the alu (40_execution.md R66 to R68), on natural numbers and bit by bit. -/

namespace Sys2Proof.Machine

/-- Below the width the shift is a division, and the quotient still fits the width. -/
theorem shiftRight_toNat_of_lt (a : Word) {s : Word} (h : s.toNat < 128) :
    (shiftRight a s).toNat = a.toNat / 2 ^ s.toNat := by
  have hfits : a.toNat / 2 ^ s.toNat < 2 ^ 128 := (Nat.div_le_self ..).trans_lt a.isLt
  rw [shiftRight, if_pos h, BitVec.toNat_ofNat, Nat.mod_eq_of_lt hfits]

theorem shiftRight_of_ge (a : Word) {s : Word} (h : 128 ≤ s.toNat) : shiftRight a s = 0 :=
  if_neg (Nat.not_lt.2 h)

@[simp] theorem shiftRight_zero (a : Word) : shiftRight a 0 = a :=
  BitVec.eq_of_toNat_eq (by simp [shiftRight_toNat_of_lt])

/-- Settles O8: a division below the width, 0 from there on. -/
theorem rightShiftSaturates : Obligations.RightShiftSaturates := fun a _ =>
  ⟨shiftRight_toNat_of_lt a, fun h => congrArg BitVec.toNat (shiftRight_of_ge a h), shiftRight_zero a⟩

/-- Settles O9, from the laws of XOR on bit vectors. -/
theorem xorIsBitwise : Obligations.XorIsBitwise := fun a b c =>
  ⟨fun _ _ => BitVec.getLsbD_xor, BitVec.xor_comm a b, BitVec.xor_assoc a b c, BitVec.xor_self,
    BitVec.xor_zero⟩

theorem mod8_toNat (v : Word) : (mod8 v).toNat = v.toNat % 8 := by
  simp [mod8, BitVec.extractLsb'_toNat]

theorem mod8_getLsbD (v : Word) {i : Nat} (h : i < 3) : (mod8 v).getLsbD i = v.getLsbD i := by
  simp [mod8, h]

/-- Settles O10: the extracted bits are the remainder. -/
theorem modEightIsLowBits : Obligations.ModEightIsLowBits := fun v =>
  ⟨mod8_toNat v, fun _ => mod8_getLsbD v⟩

end Sys2Proof.Machine
end

section
/-! The kinds of a step (40_execution.md R57 to R63): what the core does at each `pc`, how the run state
tells the kinds apart, and where each leaves `pc`. -/

namespace Sys2Proof

/-- The bytes that decode to an instruction are its opcode and its operand (30_encoding.md R43, R45). -/
theorem opcode_operand_of_decodePair {op x : Byte} {i : Instr} (h : decodePair op x = some i) :
    i.opcode = op ∧ i.operand = x := by
  unfold decodePair at h
  split at h <;> cases h
  all_goals
    rename_i hop
    exact ⟨BitVec.eq_of_toNat_eq hop.symm, by simp [Instr.operand]⟩

end Sys2Proof

namespace Sys2Proof.Machine

/-- At or past the end a step halts (40_execution.md R58). -/
theorem step_past {s : State} (hr : s.runState = .running) (hp : s.len ≤ s.pc) :
    step s = .next (halt s) := by
  rw [step_running hr, runningStep, fetchCells_past hp, decode]

/-- At the last cell a step takes MalformedProgram (40_execution.md R59). -/
theorem step_tail {s : State} (hr : s.runState = .running) (hp : s.pc + 1 = s.len) :
    step s = .next (takeFault .malformedProgram (tapeByte s.tape s.pc) none s) := by
  rw [step_running hr, runningStep, fetchCells_tail hp, decode]

/-- A step on two cells that select an instruction executes it (40_execution.md R61). -/
theorem step_of_decodePair_some {s : State} {op x : Byte} {i : Instr} (hr : s.runState = .running)
    (hf : fetchCells s = [op, x]) (hd : decodePair op x = some i) : step s = exec i s := by
  rw [step_running hr, runningStep, hf, decode_pair_of_some hd]

/-- In RUNNING a step always answers a next state (40_execution.md R57). -/
theorem step_next_of_running {s : State} (hr : s.runState = .running) : ∃ t, step s = .next t := by
  rcases Nat.lt_trichotomy (s.pc + 1) s.len with hpair | htail | hpast
  · have hf := fetchCells_pair hpair
    cases hd : decodePair (tapeByte s.tape s.pc) (tapeByte s.tape (s.pc + 1)) with
    | none => exact ⟨_, step_of_decodePair_none hr hf hd⟩
    | some i =>
      obtain ⟨t, ht, -⟩ := exec_next i s
      exact ⟨t, (step_of_decodePair_some hr hf hd).trans ht⟩
  · exact ⟨_, step_tail hr htail⟩
  · exact ⟨_, step_past hr (Nat.le_of_lt_succ hpast)⟩

/-- An instruction takes InvalidOperand where it stands, or it keeps the run state and advances, but for a
taken jnz (40_execution.md R61, R63). -/
theorem Effect.faulted_or_kept {i : Instr} {s t : State} (he : Effect i s t) :
    (t.runState = .faulted ∧ t.faultCause = .invalidOperand ∧ t.pc = s.pc) ∨
      (t.runState = s.runState ∧ (t.pc = s.pc + 2 ∨ i.opcode = 3 ∧ s.a ≠ 0)) := by
  cases he with
  | register r v h => subst h; exact .inr ⟨by simp, .inl (by simp)⟩
  | output v hi h => subst h; exact .inr ⟨rfl, .inl rfl⟩
  | jump x hi ha h => subst hi h; exact .inr ⟨rfl, .inr ⟨rfl, ha⟩⟩
  | fallThrough x hi ha h => subst h; exact .inr ⟨rfl, .inl rfl⟩
  | invalidOperand b hb ho hx h => subst h; exact .inl ⟨rfl, rfl, rfl⟩

/-- A step into RUNNING has executed the instruction at `pc`: the halt and the faults leave RUNNING. -/
theorem executed_of_step_running {s t : State} (h : step s = .next t) (ht : t.runState = .running) :
    ∃ op x i, memRead s s.pc = some op ∧ memRead s (s.pc + 1) = some x ∧
      decodePair op x = some i ∧ exec i s = .next t := by
  cases (step_next h).2 with
  | halted hp h => subst h; cases ht
  | truncated hp h => subst h; cases ht
  | badOpcode hp ho h => subst h; cases ht
  | executed i hp hd h =>
    exact ⟨_, _, i, memRead_of_lt (Nat.lt_of_succ_lt hp), memRead_of_lt hp, hd, h⟩

/-- A step out of RUNNING leaves `pc`, on a halt and on every fault (40_execution.md R63). -/
theorem step_pc_of_stopped {s t : State} (h : step s = .next t) (ht : t.runState ≠ .running) :
    t.pc = s.pc := by
  obtain ⟨hr, hstep⟩ := step_next h
  cases hstep with
  | halted hp h => subst h; rfl
  | truncated hp h => subst h; rfl
  | badOpcode hp ho h => subst h; rfl
  | executed i hp hd h =>
    rcases (effect_of_exec h).faulted_or_kept with ⟨-, -, hpc⟩ | ⟨hrun, -⟩
    · exact hpc
    · exact absurd (hrun.trans hr) ht

/-- Settles O28: outside RUNNING there is no next state, and inside each kind of step leaves a run state
of its own, InvalidOperand being the one fault that an executed instruction takes. -/
theorem stepDoesOneOfThree : Obligations.StepDoesOneOfThree := by
  intro s
  refine ⟨fun hn t h => hn (step_next h).1, fun hr => ?_⟩
  obtain ⟨t, ht⟩ := step_next_of_running hr
  refine ⟨t, ht, ?_⟩
  cases (step_next ht).2 with
  | halted hp h => subst h; exact .inl ⟨rfl, hp⟩
  | truncated hp h => subst h; exact .inr (.inl ⟨rfl, by omega, by simp⟩)
  | badOpcode hp ho h => subst h; exact .inr (.inl ⟨rfl, by omega, by simp⟩)
  | executed i hp hd h =>
    rcases (effect_of_exec h).faulted_or_kept with ⟨hf, hcause, -⟩ | ⟨hrun, -⟩
    · exact .inr (.inl ⟨hf, by omega, by simp [hcause]⟩)
    · exact .inr (.inr ⟨hrun.trans hr, _, _, i, fetchCells_pair hp, hd, h⟩)

/-- Settles O32: a step into RUNNING executed the instruction at `pc`, and the one that does not advance
is the taken jnz; every other step leaves `pc`. -/
theorem advanceRule : Obligations.AdvanceRule := by
  intro s t h
  refine ⟨fun ht hop ha => ?_, fun ht hno => ?_, step_pc_of_stopped h⟩
  · obtain ⟨op, x, i, hop', hx, hd, he⟩ := executed_of_step_running h ht
    cases hop.symm.trans hop'
    cases hd
    rw [exec, execJnz_eq, if_pos ha] at he
    cases he
    exact ⟨x, hx, jumpTo_pc ..⟩
  · obtain ⟨op, x, i, hop, -, hd, he⟩ := executed_of_step_running h ht
    rcases (effect_of_exec he).faulted_or_kept with ⟨hf, -, -⟩ | ⟨-, hpc | ⟨hjnz, ha⟩⟩
    · cases ht.symm.trans hf
    · exact hpc
    · obtain ⟨hi, -⟩ := opcode_operand_of_decodePair hd
      exact absurd ⟨hop.trans (congrArg some (hi.symm.trans hjnz)), ha⟩ hno

/-- Only the step at the last cell takes MalformedProgram (60_exceptions.md R87). -/
theorem tail_of_malformedProgram {s t : State} (h : step s = .next t) (ht : t.runState = .faulted)
    (hcause : t.faultCause = .malformedProgram) : s.pc + 1 = s.len := by
  obtain ⟨hr, hstep⟩ := step_next h
  cases hstep with
  | halted hp h => subst h; cases ht
  | truncated hp h => exact hp
  | badOpcode hp ho h => subst h; cases hcause
  | executed i hp hd h =>
    rcases (effect_of_exec h).faulted_or_kept with ⟨-, hop, -⟩ | ⟨hrun, -⟩
    · cases hcause.symm.trans hop
    · cases ht.symm.trans (hrun.trans hr)

/-- Settles O26, case by case of `pc`. -/
theorem truncatedFetchFaults : Obligations.TruncatedFetchFaults := by
  intro s hr
  refine ⟨fun hp => ⟨_, memRead_of_lt (by omega), step_tail hr hp⟩,
    fun hp => ⟨_, step_past hr hp, halt_runState s⟩, fun hp => ?_, fun _ => tail_of_malformedProgram⟩
  exact ⟨_, _, fetchCells_pair hp, memRead_of_lt (by omega), memRead_of_lt hp⟩

/-- Settles O27: the step is the halt, whose result is the output. -/
theorem haltAtEnd : Obligations.HaltAtEnd := fun s hr hp =>
  ⟨halt s, step_past hr hp, rfl, rfl⟩

end Sys2Proof.Machine
end

section
/-! The shift family (41_shift_divide.md): adv, bdv and cdv on an operand that resolves, and their
obligations. What they do on an operand that does not is `withCombo_ofByte_of_ge_seven`. -/

namespace Sys2Proof.Machine

/-- The single formula of the shift, for every amount (40_execution.md R66): from the width on, `2 ^ s`
exceeds every register value. -/
theorem shiftRight_toNat (a s : Word) : (shiftRight a s).toNat = a.toNat / 2 ^ s.toNat := by
  rcases Nat.lt_or_ge s.toNat 128 with hs | hs
  · exact shiftRight_toNat_of_lt a hs
  · have hlt : a.toNat < 2 ^ s.toNat := a.isLt.trans_le (Nat.pow_le_pow_right (by decide) hs)
    rw [shiftRight_of_ge a hs, Nat.div_eq_of_lt hlt, BitVec.ofNat_eq_ofNat, BitVec.toNat_zero]

@[simp] theorem zero_shiftRight (s : Word) : shiftRight 0 s = 0 :=
  BitVec.eq_of_toNat_eq (by simp [shiftRight_toNat])

/-- A value shifted by itself leaves nothing, since `n < 2 ^ n`. -/
@[simp] theorem shiftRight_self (a : Word) : shiftRight a a = 0 :=
  BitVec.eq_of_toNat_eq (by simp [shiftRight_toNat, Nat.div_eq_of_lt Nat.lt_two_pow_self])

/-- The operand bytes 0 to 3 resolve to the word of the same value (30_encoding.md R49). -/
theorem combo_ofByte_of_toNat_eq {x : Byte} {v : Word} (hv : v.toNat ≤ 3) (h : x.toNat = v.toNat)
    (s : State) : combo (Combo.ofByte x) s = some v := by
  obtain ⟨u, hu, hux⟩ := combo_ofByte_of_le_three (h.trans_le hv) s
  rw [hu, BitVec.eq_of_toNat_eq (hux.trans h)]

section
variable {x : Combo} {s : State} {v : Word} (h : combo x s = some v)
include h

/-- On an operand that resolves, adv writes A and advances (41_shift_divide.md R74). -/
theorem exec_adv_of_combo :
    exec (.adv x) s = .next { s with a := shiftRight s.a v, pc := s.pc + 2 } :=
  withCombo_resolved h ..

/-- On an operand that resolves, bdv writes B and advances (41_shift_divide.md R75). -/
theorem exec_bdv_of_combo :
    exec (.bdv x) s = .next { s with b := shiftRight s.a v, pc := s.pc + 2 } :=
  withCombo_resolved h ..

/-- On an operand that resolves, cdv writes C and advances (41_shift_divide.md R76). -/
theorem exec_cdv_of_combo :
    exec (.cdv x) s = .next { s with c := shiftRight s.a v, pc := s.pc + 2 } :=
  withCombo_resolved h ..

end

/-- Settles O12: the laws of the shift, on what each operand byte resolves to. -/
theorem advShiftsIntoA : Obligations.AdvShiftsIntoA := by
  intro s x
  obtain ⟨-, hcomboA, -⟩ := comboTable s x
  refine ⟨rfl, fun v hv => ⟨shiftRight s.a v, exec_adv_of_combo hv, shiftRight_toNat s.a v,
    shiftRight_of_ge s.a, fun ha => ?_⟩, fun hx => ?_, fun hx => ?_, fun hx => ?_, fun hx ha => ?_⟩
  · rw [ha, zero_shiftRight]
  · exact ⟨_, withCombo_ofByte_of_ge_seven hx 0 s _, rfl, rfl, rfl, rfl⟩
  · rw [exec_adv_of_combo (combo_ofByte_of_toNat_eq (v := 0) (by decide) hx s), shiftRight_zero]
  · rw [exec_adv_of_combo (hcomboA hx), shiftRight_self]
  · have hshift : shiftRight 2024 1 = 1012 := by decide
    rw [exec_adv_of_combo (combo_ofByte_of_toNat_eq (v := 1) (by decide) hx s), ha, hshift]

/-- Settles O13: the amount is read before B is written, so operand 5 shifts by the old B. -/
theorem bdvShiftsIntoB : Obligations.BdvShiftsIntoB := by
  intro s x
  obtain ⟨-, -, hcomboB, -⟩ := comboTable s x
  refine ⟨rfl, fun v hv => ⟨shiftRight s.a v, exec_bdv_of_combo hv, shiftRight_toNat s.a v,
    shiftRight_of_ge s.a⟩, fun hx => ?_, fun hx => ?_, fun hx => ?_, fun hx ha hb => ?_⟩
  · exact ⟨_, withCombo_ofByte_of_ge_seven hx 6 s _, rfl, rfl, rfl, rfl⟩
  · rw [exec_bdv_of_combo (combo_ofByte_of_toNat_eq (v := 0) (by decide) hx s), shiftRight_zero]
  · exact ⟨_, exec_bdv_of_combo (hcomboB hx), shiftRight_toNat s.a s.b⟩
  · have hshift : shiftRight 64 3 = 8 := by decide
    rw [exec_bdv_of_combo (hcomboB hx), ha, hb, hshift]

/-- Settles O14: the amount is read before C is written, so operand 6 shifts by the old C. -/
theorem cdvShiftsIntoC : Obligations.CdvShiftsIntoC := by
  intro s x
  obtain ⟨-, -, -, hcomboC, -⟩ := comboTable s x
  refine ⟨rfl, fun v hv => ⟨shiftRight s.a v, exec_cdv_of_combo hv, shiftRight_toNat s.a v,
    shiftRight_of_ge s.a⟩, fun hx => ?_, fun hx => ?_, fun hx => ?_, fun hx ha hc => ?_⟩
  · exact ⟨_, withCombo_ofByte_of_ge_seven hx 7 s _, rfl, rfl, rfl, rfl⟩
  · rw [exec_cdv_of_combo (combo_ofByte_of_toNat_eq (v := 0) (by decide) hx s), shiftRight_zero]
  · exact ⟨_, exec_cdv_of_combo (hcomboC hx), shiftRight_toNat s.a s.c⟩
  · have hshift : shiftRight 10 1 = 5 := by decide
    rw [exec_cdv_of_combo (hcomboC hx), ha, hc, hshift]

end Sys2Proof.Machine
end

section
/-! The bitwise family (42_bitwise.md): bxl, bst and bxc, and their obligations. What bst does on an
operand that does not resolve is `withCombo_ofByte_of_ge_seven`. -/

namespace Sys2Proof.Machine

/-- XOR by the same value twice restores the first operand (42_bitwise.md R81 (a)). -/
@[simp] theorem bitXor_bitXor_cancel (a b : Word) : bitXor (bitXor a b) b = a := by
  rw [bitXor, bitXor, BitVec.xor_assoc, BitVec.xor_self, BitVec.xor_zero]

@[simp] theorem bitXor_toNat (a b : Word) : (bitXor a b).toNat = a.toNat ^^^ b.toNat :=
  BitVec.toNat_xor ..

/-- A literal is widened with zero bits, so it keeps its value (30_encoding.md R48). -/
@[simp] theorem literalWord_toNat (x : Byte) : (literalWord x).toNat = x.toNat :=
  BitVec.toNat_setWidth_of_le (by decide)

theorem literalWord_getLsbD_of_ge (x : Byte) {i : Nat} (h : 8 ≤ i) :
    (literalWord x).getLsbD i = false := by
  rw [literalWord, BitVec.getLsbD_setWidth, BitVec.getLsbD_of_ge x i h, Bool.and_false]

/-- XOR with a literal keeps the bits from 8 on (42_bitwise.md R78, decision D4). -/
theorem bitXor_literalWord_getLsbD_of_ge (a : Word) (x : Byte) {i : Nat} (h : 8 ≤ i) :
    (bitXor a (literalWord x)).getLsbD i = a.getLsbD i := by
  rw [bitXor, BitVec.getLsbD_xor, literalWord_getLsbD_of_ge x h, Bool.xor_false]

/-- The digit that bst writes, widened to a register, is the value mod 8 (40_execution.md R68). -/
theorem mod8_setWidth_toNat (v : Word) : ((mod8 v).setWidth 128).toNat = v.toNat % 8 := by
  rw [BitVec.toNat_setWidth_of_le (by decide), mod8_toNat]

theorem mod8_setWidth_getLsbD_of_ge (v : Word) {i : Nat} (h : 3 ≤ i) :
    ((mod8 v).setWidth 128).getLsbD i = false := by
  rw [BitVec.getLsbD_setWidth, BitVec.getLsbD_of_ge (mod8 v) i h, Bool.and_false]

/-- bxl writes B and advances, whatever the operand byte (42_bitwise.md R78). -/
theorem exec_bxl (x : Byte) (s : State) :
    exec (.bxl x) s = .next { s with b := bitXor s.b (literalWord x), pc := s.pc + 2 } := rfl

/-- On an operand that resolves, bst writes B and advances (42_bitwise.md R79). -/
theorem exec_bst_of_combo {x : Combo} {s : State} {v : Word} (h : combo x s = some v) :
    exec (.bst x) s = .next { s with b := (mod8 v).setWidth 128, pc := s.pc + 2 } :=
  withCombo_resolved h ..

/-- bxc writes B and advances, whatever the operand byte (42_bitwise.md R80). -/
theorem exec_bxc (x : Byte) (s : State) :
    exec (.bxc x) s = .next { s with b := bitXor s.b s.c, pc := s.pc + 2 } := rfl

/-- Settles O15: the literal's bits from 8 on are 0, so XOR keeps B there, and XOR twice cancels. -/
theorem bxlXorsLiteral : Obligations.BxlXorsLiteral := by
  intro s x
  have hnat : (bitXor s.b (literalWord x)).toNat = s.b.toNat ^^^ x.toNat := by simp
  refine ⟨rfl, ⟨_, exec_bxl x s, hnat, fun i => bitXor_literalWord_getLsbD_of_ge s.b x,
    fun hx => ?_, ?_⟩, fun hx hb => ⟨_, exec_bxl x s, ?_⟩, fun hx hb => ⟨_, exec_bxl x s, ?_⟩⟩
  · exact BitVec.eq_of_toNat_eq (by rw [hnat, hx, Nat.xor_zero])
  · rw [exec_bxl, bitXor_bitXor_cancel]
  · rw [hnat, hx, hb]; decide
  · rw [hnat, hx, hb]; decide

/-- Settles O16: the remainder, on what each operand byte resolves to. -/
theorem bstTakesModEight : Obligations.BstTakesModEight := by
  intro s x
  obtain ⟨hconstant, hcomboA, hcomboB, hcomboC, -⟩ := comboTable s x
  refine ⟨rfl, fun v hv => ⟨_, exec_bst_of_combo hv, mod8_setWidth_toNat v,
    fun i => mod8_setWidth_getLsbD_of_ge v⟩, fun hx => ?_, fun hx => ?_, fun hx => ?_, fun hx => ?_,
    fun hx hc => ?_⟩
  · exact ⟨_, withCombo_ofByte_of_ge_seven hx 2 s _, rfl, rfl, rfl, rfl⟩
  · obtain ⟨v, hv, hvx⟩ := hconstant hx
    exact ⟨_, exec_bst_of_combo hv, by rw [mod8_setWidth_toNat, hvx]; omega⟩
  · exact ⟨_, exec_bst_of_combo (hcomboB hx), mod8_setWidth_toNat s.b⟩
  · exact ⟨_, exec_bst_of_combo (hcomboA hx), mod8_setWidth_toNat s.a, rfl⟩
  · exact ⟨_, exec_bst_of_combo (hcomboC hx), by rw [mod8_setWidth_toNat, hc]⟩

/-- Settles O17: the laws of XOR, with C unchanged between two runs of bxc. -/
theorem bxcXorsRegisters : Obligations.BxcXorsRegisters := by
  intro s x
  obtain ⟨hbit, -, -, hself, hzero⟩ := xorIsBitwise s.b s.c 0
  refine ⟨rfl, ⟨_, exec_bxc x s, hbit, fun h => ?_, fun h => ?_, ?_⟩, fun hb hc =>
    ⟨_, exec_bxc x s, ?_⟩⟩
  · rw [← h, hself]
  · rw [h, hzero]
  · rw [exec_bxc, bitXor_bitXor_cancel]
  · rw [bitXor_toNat, hb, hc]; decide

end Sys2Proof.Machine
end

section
/-! The control family (43_control.md): jnz, taken and not taken, and its obligation. What the next
step finds at the target is `step_past`, `step_tail` and `truncatedFetchFaults`. -/

namespace Sys2Proof.Machine

/-- Taken, jnz writes the literal to `pc` and does not advance (43_control.md R82). -/
theorem exec_jnz_of_ne_zero {s : State} (ha : s.a ≠ 0) (x : Byte) :
    exec (.jnz x) s = .next { s with pc := x.toNat } :=
  (execJnz_eq x s).trans (if_pos ha)

/-- Not taken, jnz advances (43_control.md R82). -/
theorem exec_jnz_of_eq_zero {s : State} (ha : s.a = 0) (x : Byte) :
    exec (.jnz x) s = .next { s with pc := s.pc + 2 } :=
  (execJnz_eq x s).trans (if_neg (not_not.2 ha))

/-- Settles O18: the jump does not check its target; the next fetch does, with its three cases at any
`pc` (decision D6). -/
theorem jnzJumps : Obligations.JnzJumps := by
  intro s x
  refine ⟨rfl, fun ha => exec_jnz_of_ne_zero ha x, fun ha => exec_jnz_of_eq_zero ha x,
    fun t ha hr h => ?target, fun ha hx => ?self, fun hpc hx => ?back⟩
  case target =>
    cases (exec_jnz_of_ne_zero ha x).symm.trans h
    obtain ⟨-, -, hfetched, -⟩ := truncatedFetchFaults { s with pc := x.toNat } hr
    exact ⟨fun hp => step_past hr hp, fun hp => ⟨_, step_tail hr hp, rfl, rfl⟩, hfetched⟩
  case self => rw [exec_jnz_of_ne_zero ha, hx]
  case back =>
    by_cases ha : s.a = 0
    · exact ⟨_, exec_jnz_of_eq_zero ha x, by simp [ha], by simp [hpc]⟩
    · exact ⟨_, exec_jnz_of_ne_zero ha x, fun _ => hx, fun h => absurd (BitVec.eq_of_toNat_eq h) ha⟩

end Sys2Proof.Machine
end

section
/-! The output family (44_output.md): out, what each step and each run append, and what the host receives.
The run lemmas speak of any start, not of launched runs alone. -/

namespace Sys2Proof

/-- Opcode 5 alone selects out (30_encoding.md R45). -/
theorem eq_five_of_decodePair_out {op x : Byte} {y : Combo} (h : decodePair op x = some (.out y)) :
    op = 5 ∧ y = Combo.ofByte x := by
  obtain ⟨hop, -⟩ := opcode_operand_of_decodePair h
  cases hop
  cases h
  exact ⟨rfl, rfl⟩

end Sys2Proof

namespace Sys2Proof.Machine

/-- The operand bytes below 7 are those that resolve (30_encoding.md R49 to R51). -/
theorem combo_ofByte_of_lt_seven {x : Byte} (h : x.toNat < 7) (s : State) :
    ∃ v, combo (Combo.ofByte x) s = some v := by
  refine Option.ne_none_iff_exists'.1 fun hnone => ?_
  obtain ⟨b, hb⟩ := combo_eq_none_iff.1 hnone
  have hx : b = x := by rw [← Combo.toByte_ofByte x, hb, Combo.toByte]
  have hwf : (Combo.invalid b).wf = true := hb ▸ Combo.wf_ofByte x
  rw [hx, Combo.wf, decide_eq_true_eq] at hwf
  omega

/-- On an operand that resolves, out appends the value mod 8 and advances (44_output.md R84). -/
theorem exec_out_of_combo {x : Combo} {s : State} {v : Word} (h : combo x s = some v) :
    exec (.out x) s = .next { s with out := s.out ++ [mod8 v], pc := s.pc + 2 } :=
  withCombo_resolved h ..

/-- On an operand byte of 7 or more out takes InvalidOperand (44_output.md R84). -/
theorem exec_out_of_ge_seven {x : Byte} (h : 7 ≤ x.toNat) (s : State) :
    exec (.out (Combo.ofByte x)) s = .next (takeFault .invalidOperand 5 (some x) s) :=
  withCombo_ofByte_of_ge_seven h ..

/-- Settles O19: the remainder mod 8, on what each operand byte resolves to. -/
theorem outAppendsModEight : Obligations.OutAppendsModEight := by
  intro s x
  obtain ⟨hconstant, hcomboA, hcomboB, -, -⟩ := comboTable s x
  refine ⟨rfl, fun v hv => ⟨mod8 v, exec_out_of_combo hv, mod8_toNat v⟩, fun hx => ?_, fun hx => ?_,
    fun hx hb => ?_, fun hx ha => ?_⟩
  · exact ⟨_, exec_out_of_ge_seven hx s, rfl, rfl, rfl, rfl⟩
  · obtain ⟨v, hv, hvx⟩ := hconstant hx
    have hdigit : (mod8 v).toNat = x.toNat := by rw [mod8_toNat, hvx]; omega
    exact ⟨_, exec_out_of_combo hv, by simp [hdigit]⟩
  · have hdigit : mod8 s.b = 7 := BitVec.eq_of_toNat_eq (by rw [mod8_toNat, hb]; rfl)
    rw [exec_out_of_combo (hcomboB hx), hdigit]
  · have hdigit : mod8 s.a = 2 := BitVec.eq_of_toNat_eq (by rw [mod8_toNat, ha]; rfl)
    rw [exec_out_of_combo (hcomboA hx), hdigit]

theorem executesOut_iff {s : State} :
    s.executesOut = true ↔
      s.runState = .running ∧ ∃ x, fetchCells s = [5, x] ∧ x.toNat < 7 := by
  unfold State.executesOut
  split
  next op x hr hf => simp [hr, hf]
  next hno => exact ⟨nofun, fun ⟨hr, x, hf, _⟩ => (hno 5 x hr hf).elim⟩

/-- A step that executes out appends one element (44_output.md R84). -/
theorem step_out_of_executesOut {s t : State} (h : step s = .next t) (ho : s.executesOut = true) :
    ∃ d, t.out = s.out ++ [d] := by
  obtain ⟨hr, x, hf, hx⟩ := executesOut_iff.1 ho
  obtain ⟨v, hv⟩ := combo_ofByte_of_lt_seven hx s
  rw [step_of_decodePair_some hr hf rfl, exec_out_of_combo hv] at h
  cases h
  exact ⟨mod8 v, rfl⟩

/-- Any other step leaves the output: a halt, any fault (also the one out takes on an operand that does not
resolve), another instruction (10_state.md R20, 44_output.md R84). -/
theorem step_out_of_not_executesOut {s t : State} (h : step s = .next t)
    (ho : ¬ s.executesOut = true) : t.out = s.out := by
  obtain ⟨hr, hstep⟩ := step_next h
  cases hstep with
  | halted hp h => subst h; rfl
  | truncated hp h => subst h; rfl
  | badOpcode hp hop h => subst h; rfl
  | executed i hp hd h =>
    cases effect_of_exec h with
    | register r v ht => subst ht; exact writeReg_out r v s
    | output v hi ht =>
      obtain ⟨y, rfl⟩ := hi
      obtain ⟨hop, rfl⟩ := eq_five_of_decodePair_out hd
      have hf := fetchCells_pair hp
      rw [hop] at hf
      have hx := Nat.not_lt.1 fun hlt => ho (executesOut_iff.2 ⟨hr, _, hf, hlt⟩)
      cases (exec_out_of_ge_seven hx s).symm.trans h
      rfl
    | jump x hi ha ht => subst ht; rfl
    | fallThrough x hi ha ht => subst ht; rfl
    | invalidOperand b hb hop hx ht => subst ht; rfl

theorem step_out_length {s t : State} (h : step s = .next t) :
    t.out.length = s.out.length + s.executesOut.toNat := by
  by_cases ho : s.executesOut = true
  · obtain ⟨d, hd⟩ := step_out_of_executesOut h ho
    simp [hd, ho]
  · simp [step_out_of_not_executesOut h ho, ho]

theorem outSteps_succ_of_next {s t : State} (h : step s = .next t) (n : Nat) :
    State.outSteps (n + 1) s = s.executesOut.toNat + State.outSteps n t := by
  rw [State.outSteps, h]

/-- A run appends one element for every out instruction it executes (44_output.md R85). -/
theorem reaches_out_length {n : Nat} {s t : State} (h : s.reaches n t) :
    t.out.length = s.out.length + State.outSteps n s := by
  induction n generalizing s with
  | zero => cases reaches_zero.1 h; rfl
  | succ n ih =>
    obtain ⟨u, hu, hrest⟩ := reaches_succ.1 h
    rw [ih hrest, step_out_length hu, outSteps_succ_of_next hu, Nat.add_assoc]

/-- A launch that is not refused gives the state of 70_reset_and_hazards.md R101. -/
theorem launch_next {build : Config.Build} {program : List Nat} {a0 b0 c0 : Nat} {s : State}
    (h : launch build program a0 b0 c0 = .next s) :
    s = launched (program.map (BitVec.ofNat 8)) (BitVec.ofNat 128 a0) (BitVec.ofNat 128 b0)
      (BitVec.ofNat 128 c0) := by
  unfold launch at h
  split_ifs at h
  cases h
  rfl

theorem runResult_of_halted {s : State} (h : s.runState = .halted) :
    runResult s = some (s.out.map BitVec.toNat) := by
  rw [runResult, h]

/-- Settles O48: a launch starts with no output, and the run appends one element per out. -/
theorem resultHasOneElementPerOut : Obligations.ResultHasOneElementPerOut := by
  intro build program a0 b0 c0 s t n hlaunch hreach hhalted
  have hempty : s.out = [] := by rw [launch_next hlaunch, launched]
  refine ⟨_, runResult_of_halted hhalted, rfl, fun v hv => ?_, ?_⟩
  · obtain ⟨d, -, rfl⟩ := List.mem_map.1 hv
    exact Nat.le_of_lt_succ d.isLt
  · rw [List.length_map, reaches_out_length hreach, hempty, List.length_nil, Nat.zero_add]

end Sys2Proof.Machine
end

section
/-! The faults (60_exceptions.md): what raises InvalidOperand (R89), and what a fault writes (R91). -/

namespace Sys2Proof.Machine

/-- A combo opcode with an operand byte of 7 or more takes InvalidOperand and does nothing else
(60_exceptions.md R89). -/
theorem exec_combo_of_ge_seven {op x : Byte} {i : Instr} (hd : decodePair op x = some i)
    (hop : op.toNat ∈ [0, 2, 5, 6, 7]) (hx : 7 ≤ x.toNat) (s : State) :
    exec i s = .next (takeFault .invalidOperand op (some x) s) := by
  obtain ⟨rfl, -⟩ := opcode_operand_of_decodePair hd
  cases i with
  | adv y | bst y | out y | bdv y | cdv y => cases hd; exact withCombo_ofByte_of_ge_seven hx ..
  | bxl y | jnz y | bxc y => simp [Instr.opcode] at hop

/-- InvalidOperand, in a combo instruction, is the one way an instruction writes the run state or the record
(40_execution.md R61). -/
theorem Effect.takeFault_or_sameStatus {i : Instr} {s t : State} (he : Effect i s t) :
    (t = takeFault .invalidOperand i.opcode (some i.operand) s ∧ i.opcode.toNat ∈ [0, 2, 5, 6, 7]) ∨
      s.sameStatus t := by
  cases he with
  | register r v h => subst h; exact .inr (by simp [State.sameStatus])
  | output v hi h => subst h; exact .inr ⟨rfl, rfl, rfl, rfl, rfl⟩
  | jump x hi ha h => subst h; exact .inr ⟨rfl, rfl, rfl, rfl, rfl⟩
  | fallThrough x hi ha h => subst h; exact .inr ⟨rfl, rfl, rfl, rfl, rfl⟩
  | invalidOperand b hb ho hx h => subst hb; exact .inl ⟨h, ho⟩

/-- Settles O7: the operand does not resolve in the combo instructions, and no other opcode takes
InvalidOperand. -/
theorem invalidOperandRecord : Obligations.InvalidOperandRecord := by
  intro s op x i hd hx
  refine ⟨fun hop => exec_combo_of_ge_seven hd hop hx s, fun hop => ?_⟩
  obtain ⟨t, ht, he⟩ := exec_next i s
  obtain ⟨rfl, -⟩ := opcode_operand_of_decodePair hd
  rcases he.takeFault_or_sameStatus with ⟨-, hcombo⟩ | hsame
  · simp only [List.mem_cons, List.not_mem_nil, or_false] at hop hcombo
    omega
  · exact ⟨t, ht, hsame⟩

/-- The fault causes that a step of `s` on the opcode byte `op` can raise (60_exceptions.md R87 to R89). -/
inductive Raises (s : State) (op : Byte) : FaultCause → Prop where
  | malformedProgram (hp : s.pc + 1 = s.len) : Raises s op .malformedProgram
  | invalidOpcode (hp : s.pc + 1 < s.len) (ho : 8 ≤ op.toNat) : Raises s op .invalidOpcode
  | invalidOperand (hp : s.pc + 1 < s.len) (ho : op.toNat ∈ [0, 2, 5, 6, 7]) :
      Raises s op .invalidOperand

section
variable {s : State} {op : Byte} {cause : FaultCause} (hraise : Raises s op cause)
include hraise

theorem Raises.ne_noFault : cause ≠ .noFault := by
  cases hraise <;> nofun

theorem Raises.malformedProgram_iff : cause = .malformedProgram ↔ s.pc + 1 = s.len := by
  cases hraise with
  | malformedProgram hp => exact iff_of_true rfl hp
  | invalidOpcode hp ho => exact iff_of_false nofun hp.ne
  | invalidOperand hp ho => exact iff_of_false nofun hp.ne

theorem Raises.invalidOpcode_iff :
    cause = .invalidOpcode ↔ s.pc + 1 < s.len ∧ 8 ≤ op.toNat := by
  cases hraise with
  | malformedProgram hp => exact iff_of_false nofun fun ⟨hlt, _⟩ => hlt.ne hp
  | invalidOpcode hp ho => exact iff_of_true rfl ⟨hp, ho⟩
  | invalidOperand hp ho =>
    refine iff_of_false nofun fun ⟨_, h8⟩ => ?_
    simp only [List.mem_cons, List.not_mem_nil, or_false] at ho
    omega

/-- Every fault but MalformedProgram finds both cells (60_exceptions.md R88, R89). -/
theorem Raises.pair_of_ne_malformedProgram (h : cause ≠ .malformedProgram) :
    s.pc + 1 < s.len := by
  cases hraise with
  | malformedProgram hp => exact absurd rfl h
  | invalidOpcode hp ho => exact hp
  | invalidOperand hp ho => exact hp

end

/-- A step into FAULTED took one fault and did nothing else, with the cells that `MemRead` finds at `pc` and
`pc + 1` in the record (60_exceptions.md R87 to R91). -/
theorem takeFault_of_step {s t : State} (h : step s = .next t) (ht : t.runState = .faulted) :
    ∃ cause op, t = takeFault cause op (memRead s (s.pc + 1)) s ∧ memRead s s.pc = some op ∧
      Raises s op cause := by
  obtain ⟨hr, hstep⟩ := step_next h
  cases hstep with
  | halted hp h => subst h; cases ht
  | truncated hp h =>
    exact ⟨_, _, by rw [h, memRead_of_ge hp.ge], memRead_of_lt (by omega), .malformedProgram hp⟩
  | badOpcode hp ho h =>
    exact ⟨_, _, by rw [h, memRead_of_lt hp], memRead_of_lt (by omega), .invalidOpcode hp ho⟩
  | executed i hp hd h =>
    obtain ⟨hop, hx⟩ := opcode_operand_of_decodePair hd
    rcases (effect_of_exec h).takeFault_or_sameStatus with ⟨hfault, ho⟩ | ⟨hrun, -⟩
    · rw [hop] at ho
      exact ⟨_, _, by rw [hfault, hop, hx, memRead_of_lt hp], memRead_of_lt (by omega),
        .invalidOperand hp ho⟩
    · cases ht.symm.trans (hrun.trans hr)

/-- Settles O31: the step took one fault, and its cause tells which cells the fetch found. -/
theorem faultEntryWritesRecordOnly : Obligations.FaultEntryWritesRecordOnly := by
  intro s t h ht
  obtain ⟨cause, op, rfl, hop, hraise⟩ := takeFault_of_step h ht
  refine ⟨rfl, hraise.malformedProgram_iff, hraise.invalidOpcode_iff, hraise.ne_noFault, hop,
    fun hc => memRead_of_ge (hraise.malformedProgram_iff.1 hc).ge,
    fun hc => ⟨rfl, memRead_isSome_iff.2 (hraise.pair_of_ne_malformedProgram hc)⟩, rfl,
    fun u hu => ?_⟩
  obtain ⟨hrunning, -⟩ := step_next hu
  cases ht.symm.trans hrunning

end Sys2Proof.Machine
end

section
/-! The launch (70_reset_and_hazards.md): under the host's premises it is accepted, and the tape reads back
the program. -/

namespace Sys2Proof.Machine

/-- A host that meets the premises is not refused (70_reset_and_hazards.md R102). -/
theorem launch_of_premises {build : Config.Build} {program : List Nat} {a0 b0 c0 : Nat}
    (ha : a0 < 2 ^ 128) (hb : b0 < 2 ^ 128) (hc : c0 < 2 ^ 128) (hcells : ∀ v ∈ program, v < 256)
    (hlen : program.length ≤ build.progLenMax) :
    launch build program a0 b0 c0 = .next (launched (program.map (BitVec.ofNat 8))
      (BitVec.ofNat 128 a0) (BitVec.ofNat 128 b0) (BitVec.ofNat 128 c0)) := by
  have hall : program.all (· < 256) = true := by simpa using hcells
  rw [launch, if_neg (not_not.2 ⟨ha, hb, hc⟩), if_neg (not_not.2 hall), if_neg hlen.not_gt]

/-- A launched tape holds the program from index 0 on, and no cell past it (20_memory.md R31). -/
theorem memRead_launched (program : List Byte) (a0 b0 c0 : Word) (i : Nat) :
    memRead (launched program a0 b0 c0) i = program[i]? := by
  rcases Nat.lt_or_ge i program.length with hi | hi
  · have hcell : tapeByte (tapeOf 0 program) i = program[i] := by
      simpa [List.getElem?_eq_getElem hi] using tapeByte_tapeOf 0 program i
    rw [memRead_of_lt (s := launched program a0 b0 c0) hi, List.getElem?_eq_getElem hi]
    exact congrArg some hcell
  · rw [memRead_of_ge (s := launched program a0 b0 c0) hi, List.getElem?_eq_none hi]

/-- Program values below 256 are kept whole by their cells (20_memory.md R24). -/
theorem map_toNat_map_ofNat {program : List Nat} (h : ∀ v ∈ program, v < 256) :
    (program.map (BitVec.ofNat 8)).map BitVec.toNat = program := by
  rw [List.map_map]
  exact (List.map_congr_left fun v hv => Nat.mod_eq_of_lt (h v hv)).trans (List.map_id program)

/-- Settles O43: the accepted launch gives the launched state, and each value the premises bound fits its
register or cell whole. -/
theorem launchWritesEverything : Obligations.LaunchWritesEverything := by
  intro build program a0 b0 c0 ha hb hc hcells hlen
  refine ⟨_, launch_of_premises ha hb hc hcells hlen, Nat.mod_eq_of_lt ha,
    Nat.mod_eq_of_lt hb, Nat.mod_eq_of_lt hc, rfl, rfl, rfl, rfl, rfl, rfl, rfl,
    List.length_map _, fun i => ?_⟩
  rw [memRead_launched, ← List.getElem?_map, map_toNat_map_ofNat hcells]

end Sys2Proof.Machine
end

section
/-! Encoding and decoding (30_encoding.md): a well-formed instruction and its two cells say the same, alone,
in the byte list of a program, and as the word placed at `pc`. -/

namespace Sys2Proof

/-- The byte of a well-formed combo operand names that operand (30_encoding.md R49 to R51). -/
theorem Combo.ofByte_toByte {x : Combo} (h : x.wf = true) : Combo.ofByte x.toByte = x := by
  cases x with
  | constant k => exact Combo.ofByte_constant k
  | register r => cases r <;> rfl
  | invalid b => exact Combo.ofByte_invalid (of_decide_eq_true h)

/-- The opcode cell selects the instruction's row and the operand cell its operand (30_encoding.md R45). -/
theorem decodePair_opcode_operand {i : Instr} (h : i.wf = true) :
    decodePair i.opcode i.operand = some i := by
  cases i with
  | adv x => exact congrArg (some ∘ Instr.adv) (Combo.ofByte_toByte h)
  | bst x => exact congrArg (some ∘ Instr.bst) (Combo.ofByte_toByte h)
  | out x => exact congrArg (some ∘ Instr.out) (Combo.ofByte_toByte h)
  | bdv x => exact congrArg (some ∘ Instr.bdv) (Combo.ofByte_toByte h)
  | cdv x => exact congrArg (some ∘ Instr.cdv) (Combo.ofByte_toByte h)
  | bxl x | jnz x | bxc x => rfl

/-- The decoder gives well-formed instructions only. -/
theorem wf_of_decodePair {op x : Byte} {i : Instr} (h : decodePair op x = some i) : i.wf = true := by
  cases i with
  | bxl y | jnz y | bxc y => rfl
  | adv y | bst y | out y | bdv y | cdv y =>
    unfold decodePair at h
    split at h <;> cases h
    exact Combo.wf_ofByte x

/-- Every opcode below 8 selects an instruction, whatever the operand (30_encoding.md R45). -/
theorem exists_decodePair {op : Byte} (h : op.toNat < 8) (x : Byte) : ∃ i, decodePair op x = some i :=
  Option.ne_none_iff_exists'.1 (mt decodePair_eq_none_iff.1 (Nat.not_le.2 h))

/-- Settles O3: the two cells select the instruction, and the decoder takes those two alone. -/
theorem decodeEncodeRoundTrip : Obligations.DecodeEncodeRoundTrip := fun _ rest h =>
  decode_pair_of_some (decodePair_opcode_operand h) rest

/-- Settles O2: an instruction that encodes to the pair is the one that decoding the pair gives back. -/
theorem everyPairHasOneVerdict : Obligations.EveryPairHasOneVerdict := by
  intro op x
  refine ⟨fun h8 => decode_pair_of_none (decodePair_eq_none_iff.2 h8) [], fun hlt => ?_⟩
  obtain ⟨i, hi⟩ := exists_decodePair hlt x
  obtain ⟨hop, hx⟩ := opcode_operand_of_decodePair hi
  refine ⟨i, decode_pair_of_some hi [], wf_of_decodePair hi, by rw [encode, hop, hx],
    fun j hj henc => ?_⟩
  have hback := decodeEncodeRoundTrip j [] hj
  rw [List.append_nil, henc, decode_pair_of_some hi] at hback
  cases hback
  rfl

/-- Settles O4, by induction over the program: each instruction takes two cells. -/
theorem assembledProgramReadsBack : Obligations.AssembledProgramReadsBack := by
  intro is
  induction is with
  | nil => intro k i _ hk; cases hk
  | cons j js ih =>
    intro k i hwf hk
    rw [List.forall_mem_cons] at hwf
    obtain ⟨hj, hjs⟩ := hwf
    cases k with
    | zero => cases hk; exact ⟨assemble js, decodeEncodeRoundTrip j _ hj⟩
    | succ k => exact ih k i hjs hk

/-- What a row of the opcode table decodes to is what its two cells select. -/
theorem decodePair_of_decodeTableWord {nbits w : Nat} {i : Instr}
    (h : decodeTableWord nbits w = some i) :
    decodePair (tableOpcode nbits w) (tableOperand nbits w) = some i := by
  cases hd : decodePair (tableOpcode nbits w) (tableOperand nbits w) with
  | some j => rwa [decodeTableWord, decode_pair_of_some hd] at h
  | none => rw [decodeTableWord, decode_pair_of_none hd] at h; cases h

/-- The opcode cell is the high byte of a 16-bit word (30_encoding.md R43). -/
theorem tableOpcode_toNat {w : Nat} (h : w < 2 ^ 16) : (tableOpcode 16 w).toNat = w / 256 := by
  rw [tableOpcode, BitVec.toNat_ofNat]
  omega

/-- The operand cell is the low byte of a 16-bit word (30_encoding.md R43). -/
theorem tableOperand_toNat (w : Nat) : (tableOperand 16 w).toNat = w % 256 := by
  rw [tableOperand, BitVec.toNat_ofNat]
  omega

end Sys2Proof

namespace Sys2Proof.Machine

/-- The fetch finds the pair just placed (log entry 6). -/
theorem fetchCells_placePair {s : State} (h : s.tape.wf) (op x : Byte) :
    fetchCells (placePair op x s) = [op, x] := by
  have hpair : s.pc + 1 < max s.len (s.pc + 2) := by omega
  have hop : tapeByte (tapeSet (tapeSet s.tape s.pc op) (s.pc + 1) x) s.pc = op := by
    rw [tapeByte_tapeSet_other _ (by omega) x (tapeSet_wf h ..), tapeByte_tapeSet_same h]
  have hx : tapeByte (tapeSet (tapeSet s.tape s.pc op) (s.pc + 1) x) (s.pc + 1) = x :=
    tapeByte_tapeSet_same (tapeSet_wf h ..) ..
  rw [fetchCells_pair (s := placePair op x s) hpair, placePair_tape, placePair_pc, hop, hx]

/-- Settles O5: the placed pair is what the step fetches, and it selects the word's instruction. -/
theorem placedWordIsExecuted : Obligations.PlacedWordIsExecuted := by
  intro s w i htape hw hword
  have hd := decodePair_of_decodeTableWord hword
  obtain ⟨hop, hx⟩ := opcode_operand_of_decodePair hd
  exact ⟨by rw [hop, tableOpcode_toNat hw], by rw [hx, tableOperand_toNat w],
    step_of_decodePair_some rfl (fetchCells_placePair htape ..) hd⟩

/-- Settles O24: the decoder's answer on the two cells at `pc` is the instruction they select. -/
theorem stepRunsDecodedInstruction : Obligations.StepRunsDecodedInstruction := by
  intro s op x i hr hop hx hdec
  refine step_of_decodePair_some hr (fetchCells_of_memRead hop hx) ?_
  cases hd : decodePair op x with
  | some j => rw [decode_pair_of_some hd] at hdec; cases hdec; rfl
  | none => rw [decode_pair_of_none hd] at hdec; cases hdec

end Sys2Proof.Machine
end

section
/-! The laws of the shift family (41_shift_divide.md R77). -/

namespace Sys2Proof.Machine

/-- A shift leaves the value exactly when there is nothing to shift by or nothing to shift: `2 ^ s = 1` for
`s = 0` only. -/
theorem shiftRight_eq_self_iff {a s : Word} : shiftRight a s = a ↔ s = 0 ∨ a = 0 := by
  rw [← BitVec.toNat_inj, shiftRight_toNat, Nat.div_eq_self, Nat.pow_eq_one, or_comm]
  simp [BitVec.toNat_eq]

/-- Settles O11, from the single formula of the shift. -/
theorem shiftLaws : Obligations.ShiftLaws := by
  intro a s s'
  refine ⟨shiftRight_toNat a s, ?_, shiftRight_eq_self_iff, ?_⟩
  · rw [shiftRight_toNat]
    exact Nat.div_le_self ..
  · rw [shiftRight_toNat, shiftRight_toNat, Nat.div_div_eq_div_mul, Nat.pow_add]

end Sys2Proof.Machine
end

section
/-! Frames (10_state.md R13, 40_execution.md R64): which register an instruction names as its destination,
and what the instructions leave unchanged. -/

namespace Sys2Proof

/-- The register that an instruction may write (10_state.md R13). -/
def Instr.dest : Instr → Option Reg
  | .adv _ => some .a
  | .bxl _ | .bst _ | .bxc _ | .bdv _ => some .b
  | .cdv _ => some .c
  | .jnz _ | .out _ => none

end Sys2Proof

namespace Sys2Proof.Machine

/-- Writing a register and advancing leaves the run state and the fault record. -/
theorem sameStatus_advance_writeReg (r : Reg) (v : Word) (s : State) :
    s.sameStatus (advance (writeReg r v s)) := by
  simp [State.sameStatus]

/-- Appending to the output and advancing leaves the run state and the fault record. -/
theorem sameStatus_advance_outAppend (v : Digit) (s : State) :
    s.sameStatus (advance (outAppend v s)) := ⟨rfl, rfl, rfl, rfl, rfl⟩

@[simp] theorem readReg_takeFault (r : Reg) (k : FaultCause) (p : Byte) (q : Option Byte) (s : State) :
    readReg r (takeFault k p q s) = readReg r s := by cases r <;> rfl

@[simp] theorem readReg_halt (r : Reg) (s : State) : readReg r (halt s) = readReg r s := by
  cases r <;> rfl

@[simp] theorem readReg_advance (r : Reg) (s : State) : readReg r (advance s) = readReg r s := by
  cases r <;> rfl

@[simp] theorem readReg_outAppend (r : Reg) (v : Digit) (s : State) :
    readReg r (outAppend v s) = readReg r s := by cases r <;> rfl

@[simp] theorem readReg_jumpTo (r : Reg) (t : Nat) (s : State) :
    readReg r (jumpTo t s) = readReg r s := by cases r <;> rfl

theorem readReg_advance_writeReg_of_ne {r d : Reg} (h : some d ≠ some r) (v : Word) (s : State) :
    readReg r (advance (writeReg d v s)) = readReg r s := by
  rw [readReg_advance, readReg_writeReg_other fun hr => h (congrArg some hr.symm)]

/-- A combo instruction leaves every register that its resolved effect leaves: InvalidOperand writes none
(60_exceptions.md R91). -/
theorem withCombo_readReg {op : Byte} {x : Combo} {s t : State} {effect : Word → State} {r : Reg}
    (heffect : ∀ v, readReg r (effect v) = readReg r s) (h : withCombo op x s effect = .next t) :
    readReg r t = readReg r s := by
  rcases withCombo_next h with ⟨v, -, rfl⟩ | ⟨-, rfl⟩
  · exact heffect v
  · exact readReg_takeFault ..

/-- An instruction leaves every register but its destination (10_state.md R13). -/
theorem exec_readReg_of_ne_dest {i : Instr} {s t : State} {r : Reg} (h : exec i s = .next t)
    (hr : i.dest ≠ some r) : readReg r t = readReg r s := by
  cases i with
  | adv x | bst x | bdv x | cdv x =>
    exact withCombo_readReg (fun v => readReg_advance_writeReg_of_ne hr ..) h
  | out x => exact withCombo_readReg (fun v => by simp) h
  | bxl x | bxc x => cases h; exact readReg_advance_writeReg_of_ne hr ..
  | jnz x =>
    rw [exec, execJnz_eq] at h
    split at h <;> cases h
    · exact readReg_jumpTo ..
    · exact readReg_advance ..

/-- Only out writes the output (10_state.md R20). -/
theorem Effect.out_eq {i : Instr} {s t : State} (he : Effect i s t) (hi : ∀ x, i ≠ .out x) :
    t.out = s.out := by
  cases he with
  | register r v h => subst h; exact writeReg_out r v s
  | output v hout h => obtain ⟨x, hx⟩ := hout; exact absurd hx (hi x)
  | jump x hi ha h => subst h; rfl
  | fallThrough x hi ha h => subst h; rfl
  | invalidOperand b hb ho hx h => subst h; rfl

/-- What a combo instruction does to the run state and the record: nothing where its operand resolves, and
InvalidOperand where it does not (60_exceptions.md R89, R91). -/
theorem withCombo_sameStatus_or_takeFault {op : Byte} {x : Combo} {s t : State} {effect : Word → State}
    (heffect : ∀ v, s.sameStatus (effect v)) (h : withCombo op x s effect = .next t) :
    ((combo x s).isSome ∧ s.sameStatus t) ∨
      (combo x s = none ∧ t = takeFault .invalidOperand op (some x.toByte) s) := by
  rcases withCombo_next h with ⟨v, hv, rfl⟩ | hfault
  · exact .inl ⟨hv ▸ rfl, heffect v⟩
  · exact .inr hfault

theorem exec_combo_sameStatus_or_takeFault {i : Instr} {x : Combo} {s t : State}
    (hi : i ∈ [Instr.adv x, .bst x, .out x, .bdv x, .cdv x]) (h : exec i s = .next t) :
    ((combo x s).isSome ∧ s.sameStatus t) ∨
      (combo x s = none ∧ t = takeFault .invalidOperand i.opcode (some x.toByte) s) := by
  simp only [List.mem_cons, List.not_mem_nil, or_false] at hi
  obtain rfl | rfl | rfl | rfl | rfl := hi
  · exact withCombo_sameStatus_or_takeFault (fun v => sameStatus_advance_writeReg ..) h
  · exact withCombo_sameStatus_or_takeFault (fun v => sameStatus_advance_writeReg ..) h
  · exact withCombo_sameStatus_or_takeFault (fun v => sameStatus_advance_outAppend ..) h
  · exact withCombo_sameStatus_or_takeFault (fun v => sameStatus_advance_writeReg ..) h
  · exact withCombo_sameStatus_or_takeFault (fun v => sameStatus_advance_writeReg ..) h

/-- Settles O21: each instruction names its destination, and the operand decides between its effect and
InvalidOperand. -/
theorem comboInstructionFrame : Obligations.ComboInstructionFrame := by
  intro s t x
  refine ⟨fun h => ⟨exec_readReg_of_ne_dest (r := .b) h nofun,
      exec_readReg_of_ne_dest (r := .c) h nofun, (effect_of_exec h).out_eq nofun⟩,
    fun h => ⟨exec_readReg_of_ne_dest (r := .a) h nofun,
      exec_readReg_of_ne_dest (r := .c) h nofun, (effect_of_exec h).out_eq nofun⟩,
    fun h => ⟨exec_readReg_of_ne_dest (r := .a) h nofun,
      exec_readReg_of_ne_dest (r := .b) h nofun, exec_readReg_of_ne_dest (r := .c) h nofun⟩,
    fun h => ⟨exec_readReg_of_ne_dest (r := .a) h nofun,
      exec_readReg_of_ne_dest (r := .c) h nofun, (effect_of_exec h).out_eq nofun⟩,
    fun h => ⟨exec_readReg_of_ne_dest (r := .a) h nofun,
      exec_readReg_of_ne_dest (r := .b) h nofun, (effect_of_exec h).out_eq nofun⟩,
    fun i hi h => ⟨exec_sameTape h, ?_⟩⟩
  rcases exec_combo_sameStatus_or_takeFault hi h with ⟨hsome, hsame⟩ | ⟨hnone, rfl⟩
  · exact ⟨fun _ _ => hsame, fun hnone => by simp [hnone] at hsome⟩
  · exact ⟨fun _ hv => absurd (hnone.symm.trans hv) nofun, fun _ => ⟨rfl, rfl, rfl, rfl, rfl⟩⟩

/-- bxl, bxc and jnz take no fault (60_exceptions.md R89). -/
theorem exec_sameStatus_of_literal {i : Instr} {s t : State} (hi : i.opcode.toNat ∉ [0, 2, 5, 6, 7])
    (h : exec i s = .next t) : s.sameStatus t :=
  (effect_of_exec h).takeFault_or_sameStatus.resolve_left fun ⟨_, hcombo⟩ => hi hcombo

/-- Settles O22: bxl and bxc write B alone, jnz no register, and none of the three takes a fault. -/
theorem literalInstructionFrame : Obligations.LiteralInstructionFrame := by
  intro s t x
  refine ⟨fun h => ⟨exec_readReg_of_ne_dest (r := .a) h nofun,
      exec_readReg_of_ne_dest (r := .c) h nofun⟩,
    fun h => ⟨exec_readReg_of_ne_dest (r := .a) h nofun,
      exec_readReg_of_ne_dest (r := .c) h nofun⟩,
    fun h => ⟨exec_readReg_of_ne_dest (r := .a) h nofun,
      exec_readReg_of_ne_dest (r := .b) h nofun, exec_readReg_of_ne_dest (r := .c) h nofun⟩,
    fun i hi h => ?_⟩
  simp only [List.mem_cons, List.not_mem_nil, or_false] at hi
  obtain rfl | rfl | rfl := hi <;>
    exact ⟨(effect_of_exec h).out_eq nofun, exec_sameStatus_of_literal (by simp [Instr.opcode]) h,
      exec_sameTape h⟩

/-- A step that changes a register executed an instruction with that destination, and changed no other. -/
theorem dest_of_step_readReg_ne {s t : State} {r : Reg} (h : step s = .next t)
    (hr : readReg r t ≠ readReg r s) :
    ∃ i : Instr, memRead s s.pc = some i.opcode ∧ i.dest = some r ∧
      ∀ q, q ≠ r → readReg q t = readReg q s := by
  cases (step_next h).2 with
  | halted hp h => subst h; exact absurd (readReg_halt ..) hr
  | truncated hp h => subst h; exact absurd (readReg_takeFault ..) hr
  | badOpcode hp ho h => subst h; exact absurd (readReg_takeFault ..) hr
  | executed i hp hd h =>
    obtain ⟨hop, -⟩ := opcode_operand_of_decodePair hd
    have hdest : i.dest = some r := not_not.1 fun hne => hr (exec_readReg_of_ne_dest h hne)
    refine ⟨i, hop ▸ memRead_of_lt (Nat.lt_of_succ_lt hp), hdest, fun q hq => ?_⟩
    exact exec_readReg_of_ne_dest h fun he => hq (Option.some.inj (he.symm.trans hdest))

/-- Settles O23: the instructions with destination A, B and C are those of opcode 0, of 1, 2, 4 and 6, and
of 7. -/
theorem registerWriters : Obligations.RegisterWriters := by
  intro s t h
  refine ⟨fun ha => ?_, fun hb => ?_, fun hc => ?_⟩
  · obtain ⟨i, hop, hdest, hother⟩ := dest_of_step_readReg_ne (r := .a) h ha
    refine ⟨?_, hother .b nofun, hother .c nofun⟩
    cases i <;> cases hdest
    exact hop
  · obtain ⟨i, hop, hdest, hother⟩ := dest_of_step_readReg_ne (r := .b) h hb
    refine ⟨⟨i.opcode, ?_, hop⟩, hother .a nofun, hother .c nofun⟩
    cases i <;> cases hdest <;> simp [Instr.opcode]
  · obtain ⟨i, hop, hdest, hother⟩ := dest_of_step_readReg_ne (r := .c) h hc
    refine ⟨?_, hother .a nofun, hother .b nofun⟩
    cases i <;> cases hdest
    exact hop

end Sys2Proof.Machine
end

section
/-! What a step does, told from the two cells at `pc`: the executable words complete (30_encoding.md R53),
and the faults come in their order (60_exceptions.md R90). -/

namespace Sys2Proof.Machine

/-- A well-formed combo operand resolves where its byte is below 7 (30_encoding.md R49 to R51). -/
theorem combo_of_toByte_lt_seven {x : Combo} (hwf : x.wf = true) (h : x.toByte.toNat < 7)
    (s : State) : ∃ v, combo x s = some v := by
  obtain ⟨v, hv⟩ := combo_ofByte_of_lt_seven h s
  exact ⟨v, Combo.ofByte_toByte hwf ▸ hv⟩

/-- An executable word completes with its own effect (30_encoding.md R53). -/
theorem exec_of_executable {op x : Byte} {i : Instr} (hd : decodePair op x = some i)
    (hx : op.toNat ∈ [1, 3, 4] ∨ x.toNat < 7) (s : State) :
    ∃ t, exec i s = .next t ∧ s.sameStatus t ∧
      t.pc = if op.toNat = 3 ∧ s.a ≠ 0 then x.toNat else s.pc + 2 := by
  have hwf := wf_of_decodePair hd
  obtain ⟨rfl, rfl⟩ := opcode_operand_of_decodePair hd
  cases i with
  | bxl y => exact ⟨_, rfl, sameStatus_advance_writeReg .., rfl⟩
  | bxc y => exact ⟨_, rfl, sameStatus_advance_writeReg .., rfl⟩
  | jnz y =>
    by_cases ha : s.a = 0
    · exact ⟨_, exec_jnz_of_eq_zero ha y, ⟨rfl, rfl, rfl, rfl, rfl⟩,
        (if_neg fun ⟨_, hne⟩ => hne ha).symm⟩
    · exact ⟨_, exec_jnz_of_ne_zero ha y, ⟨rfl, rfl, rfl, rfl, rfl⟩, (if_pos ⟨rfl, ha⟩).symm⟩
  | adv y | bst y | bdv y | cdv y =>
    obtain ⟨v, hv⟩ := combo_of_toByte_lt_seven hwf (hx.resolve_left (by simp [Instr.opcode])) s
    exact ⟨_, withCombo_resolved hv .., sameStatus_advance_writeReg .., rfl⟩
  | out y =>
    obtain ⟨v, hv⟩ := combo_of_toByte_lt_seven hwf (hx.resolve_left (by simp [Instr.opcode])) s
    exact ⟨_, withCombo_resolved hv .., sameStatus_advance_outAppend .., rfl⟩

/-- Settles O20: an opcode below 8 selects an instruction, and an executable one completes. -/
theorem executableWordsComplete : Obligations.ExecutableWordsComplete := by
  intro s op x hop hx
  obtain ⟨i, hd⟩ := exists_decodePair hop x
  obtain ⟨t, ht⟩ := exec_of_executable hd hx s
  exact ⟨i, t, hd, ht⟩

/-- Where the fetch finds a pair, it is the two bytes that `MemRead` finds (20_memory.md R27). -/
theorem fetchCells_of_getD {s : State} {op x : Byte} (hp : s.pc + 1 < s.len)
    (hop : (memRead s s.pc).getD 0 = op) (hx : (memRead s (s.pc + 1)).getD 0 = x) :
    fetchCells s = [op, x] := by
  rw [memRead_of_lt (Nat.lt_of_succ_lt hp), Option.getD_some] at hop
  rw [memRead_of_lt hp, Option.getD_some] at hx
  rw [fetchCells_pair hp, hop, hx]

/-- Settles O30: at each `pc` and on each pair of cells the step is known, and its run state with it. -/
theorem faultPriority : Obligations.FaultPriority := by
  intro s t h op x hop hx
  obtain ⟨hr, -⟩ := step_next h
  split_ifs with hpast htail hbad hoperand
  · cases (step_past hr hpast).symm.trans h
    rfl
  · cases (step_tail hr htail).symm.trans h
    exact ⟨rfl, rfl⟩
  · have hf := fetchCells_of_getD (by omega) hop hx
    cases (step_of_decodePair_none hr hf (decodePair_eq_none_iff.2 hbad)).symm.trans h
    exact ⟨rfl, rfl⟩
  · have hf := fetchCells_of_getD (by omega) hop hx
    obtain ⟨i, hd⟩ := exists_decodePair (Nat.not_le.1 hbad) x
    obtain ⟨hcombo, h7⟩ := hoperand
    rw [step_of_decodePair_some hr hf hd, exec_combo_of_ge_seven hd hcombo h7] at h
    cases h
    exact ⟨rfl, rfl⟩
  · have hf := fetchCells_of_getD (by omega) hop hx
    obtain ⟨i, hd⟩ := exists_decodePair (Nat.not_le.1 hbad) x
    have hexecutable : op.toNat ∈ [1, 3, 4] ∨ x.toNat < 7 := by
      simp only [List.mem_cons, List.not_mem_nil, or_false] at hoperand ⊢
      omega
    obtain ⟨u, hu, ⟨hrun, -⟩, -⟩ := exec_of_executable hd hexecutable s
    rw [step_of_decodePair_some hr hf hd, hu] at h
    cases h
    exact hrun.trans hr

end Sys2Proof.Machine
end

section
/-! Runs (10_state.md R18, R20; 40_execution.md R72, R73): the last step of a run, where a run ends, and
what it keeps. -/

namespace Sys2Proof.Machine

/-- The cells of a full fetch are those that `MemRead` finds at `pc` and `pc + 1` (20_memory.md R27). -/
theorem memRead_of_fetchCells {s : State} {op x : Byte} (h : fetchCells s = [op, x]) :
    memRead s s.pc = some op ∧ memRead s (s.pc + 1) = some x := by
  rcases Nat.lt_trichotomy (s.pc + 1) s.len with hpair | htail | hpast
  · rw [fetchCells_pair hpair] at h
    cases h
    exact ⟨memRead_of_lt (Nat.lt_of_succ_lt hpair), memRead_of_lt hpair⟩
  · rw [fetchCells_tail htail] at h
    cases h
  · rw [fetchCells_past (Nat.le_of_lt_succ hpast)] at h
    cases h

/-- A step leaves the output, or it executes out and appends one element (10_state.md R20). -/
theorem step_out_extends {s t : State} (h : step s = .next t) : s.out <+: t.out := by
  by_cases ho : s.executesOut = true
  · obtain ⟨d, hd⟩ := step_out_of_executesOut h ho
    exact hd ▸ List.prefix_append ..
  · rw [step_out_of_not_executesOut h ho]

/-- Settles O34: every step keeps the output it finds, and a step that changes it executes out. -/
theorem outputOnlyGrows : Obligations.OutputOnlyGrows := by
  refine ⟨fun n s t hreach => ?_, fun s t h hne => ?_⟩
  · exact reaches_induction (P := fun u => s.out <+: u.out)
      (fun _ _ hextends hstep => hextends.trans (step_out_extends hstep)) List.prefix_rfl hreach
  · have ho : s.executesOut = true := not_not.1 fun hno => hne (step_out_of_not_executesOut h hno)
    obtain ⟨-, x, hf, -⟩ := executesOut_iff.1 ho
    exact ⟨(memRead_of_fetchCells hf).1, step_out_of_executesOut h ho⟩

/-- A run of `n` steps ends in one state. -/
theorem reaches_unique {n : Nat} {s t u : State} (ht : s.reaches n t) (hu : s.reaches n u) : t = u := by
  cases ht.symm.trans hu
  rfl

/-- Settles O35: the first step past the end would start in RUNNING. -/
theorem runStaysEnded : Obligations.RunStaysEnded := by
  intro m k s t u hreach hended hlonger
  obtain ⟨t', ht', hrest⟩ := reaches_split (n := k + 1) hlonger
  cases reaches_unique hreach ht'
  obtain ⟨v, hv, -⟩ := reaches_succ.1 hrest
  exact hended (step_next hv).1

/-- A jnz to its own index with A ≠ 0 leaves the state as it was (43_control.md R82). -/
theorem step_self_jump {s : State} {x : Byte} (hr : s.runState = .running) (ha : s.a ≠ 0)
    (hop : memRead s s.pc = some 3) (hx : memRead s (s.pc + 1) = some x) (hself : x.toNat = s.pc) :
    step s = .next s := by
  rw [step_of_decodePair_some hr (fetchCells_of_memRead hop hx) rfl, exec_jnz_of_ne_zero ha, hself]

/-- Settles O37, by induction on the number of steps: each one leaves the state. -/
theorem selfJumpNeverEnds : Obligations.SelfJumpNeverEnds := by
  intro s x hr ha hop hx hself n
  induction n with
  | zero => exact reaches_zero.2 rfl
  | succ n ih => exact reaches_succ.2 ⟨s, step_self_jump hr ha hop hx hself, ih⟩

/-- The last step of a run, where there is one. -/
theorem reaches_succ_last {n : Nat} {s t : State} :
    s.reaches (n + 1) t ↔ ∃ u, s.reaches n u ∧ step u = .next t := by
  constructor
  · intro h
    obtain ⟨u, hu, hlast⟩ := reaches_split h
    obtain ⟨v, hv, hzero⟩ := reaches_succ.1 hlast
    exact ⟨u, hu, reaches_zero.1 hzero ▸ hv⟩
  · rintro ⟨u, hu, hstep⟩
    exact reaches_trans hu (reaches_succ.2 ⟨t, hstep, reaches_zero.2 rfl⟩)

/-- The step into HALTED is the halt at or past the end (40_execution.md R58). -/
theorem halt_of_step_halted {s t : State} (h : step s = .next t) (ht : t.runState = .halted) :
    t = halt s ∧ s.len ≤ s.pc := by
  obtain ⟨hr, hstep⟩ := step_next h
  cases hstep with
  | halted hp h => exact ⟨h, hp⟩
  | truncated hp h => subst h; cases ht
  | badOpcode hp ho h => subst h; cases ht
  | executed i hp hd h =>
    rcases (effect_of_exec h).faulted_or_kept with ⟨hf, -, -⟩ | ⟨hrun, -⟩
    · cases ht.symm.trans hf
    · cases ht.symm.trans (hrun.trans hr)

/-- Settles O38: the last step of a halted run is the halt, and at or past the end the next step halts. -/
theorem haltsIffPointerPassesEnd : Obligations.HaltsIffPointerPassesEnd := by
  intro s hr
  constructor
  · rintro ⟨n, t, hreach, ht⟩
    cases n with
    | zero =>
      cases reaches_zero.1 hreach
      cases hr.symm.trans ht
    | succ n =>
      obtain ⟨u, hu, hlast⟩ := reaches_succ_last.1 hreach
      exact ⟨n, u, hu, (step_next hlast).1, (halt_of_step_halted hlast ht).2⟩
  · rintro ⟨n, t, hreach, ht, hp⟩
    exact ⟨n + 1, halt t, reaches_succ_last.2 ⟨t, hreach, step_past ht hp⟩, halt_runState t⟩

/-- The states in which the machine answers a fault are those in FAULTED (log entry 4). -/
theorem exists_step_fault_iff {s : State} : (∃ r, step s = .fault r) ↔ s.runState = .faulted := by
  refine ⟨fun ⟨r, h⟩ => ?_, fun h => ⟨_, step_faulted h⟩⟩
  cases hs : s.runState with
  | running => obtain ⟨t, ht⟩ := step_next_of_running hs; cases h.symm.trans ht
  | halted => cases h.symm.trans (step_halted hs)
  | faulted => rfl

/-- A run answers a fault exactly where it comes to a state whose step answers that fault. -/
theorem exists_run_fault_iff {s : State} {r : Fault} :
    (∃ n, Host.Core.run core n s = .fault r) ↔ ∃ n t, s.reaches n t ∧ step t = .fault r := by
  constructor
  · rintro ⟨n, h⟩
    induction n generalizing s with
    | zero => cases h
    | succ n ih =>
      cases hs : step s with
      | next u =>
        obtain ⟨m, t, hreach, ht⟩ := ih ((run_succ_of_next hs n).symm.trans h)
        exact ⟨m + 1, t, reaches_succ.2 ⟨u, hs, hreach⟩, ht⟩
      | fault r' =>
        cases (run_succ_of_fault hs n).symm.trans h
        exact ⟨0, s, reaches_zero.2 rfl, hs⟩
      | refused r' => cases (run_succ_of_refused hs n).symm.trans h
  · rintro ⟨n, t, hreach, ht⟩
    induction n generalizing s with
    | zero =>
      cases reaches_zero.1 hreach
      exact ⟨1, run_succ_of_fault ht 0⟩
    | succ n ih =>
      obtain ⟨u, hu, hrest⟩ := reaches_succ.1 hreach
      obtain ⟨m, hm⟩ := ih hrest
      exact ⟨m + 1, (run_succ_of_next hu m).trans hm⟩

/-- Settles O39: a run that comes to FAULTED answers the fault there, and no other run answers one. -/
theorem safeMeansNoFault : Obligations.SafeMeansNoFault := by
  refine fun s => ⟨fun hsafe n r h => ?_, fun hno n t hreach ht => ?_⟩
  · obtain ⟨m, t, hreach, hfault⟩ := exists_run_fault_iff.1 ⟨n, h⟩
    exact hsafe m t hreach (exists_step_fault_iff.1 ⟨r, hfault⟩)
  · obtain ⟨r, hfault⟩ := exists_step_fault_iff.2 ht
    obtain ⟨m, hm⟩ := exists_run_fault_iff.2 ⟨n, t, hreach, hfault⟩
    exact hno m r hm

/-- Settles O29, from what a step answers in HALTED and in FAULTED. -/
theorem endsShowAtTheInterface : Obligations.EndsShowAtTheInterface := fun s =>
  ⟨step_halted, fun h => ⟨_, step_faulted h, rfl, by rw [faultReport, h]⟩⟩

/-- Where a step leaves `pc`: at the literal of a taken jnz, two cells on, or where it was (40_execution.md
R63). -/
theorem step_pc_cases {s t : State} (h : step s = .next t) :
    (memRead s s.pc = some 3 ∧ s.a ≠ 0 ∧ ∃ x, memRead s (s.pc + 1) = some x ∧ t.pc = x.toNat) ∨
      (s.pc + 1 < s.len ∧ t.pc = s.pc + 2) ∨ t.pc = s.pc := by
  obtain ⟨htaken, hadvance, hstopped⟩ := advanceRule s t h
  by_cases ht : t.runState = .running
  · by_cases hjnz : memRead s s.pc = some 3 ∧ s.a ≠ 0
    · exact .inl ⟨hjnz.1, hjnz.2, htaken ht hjnz.1 hjnz.2⟩
    · obtain ⟨op, x, i, -, hx, -⟩ := executed_of_step_running h ht
      exact .inr (.inl ⟨memRead_isSome_iff.1 (hx ▸ rfl), hadvance ht hjnz⟩)
  · exact .inr (.inr (hstopped ht))

/-- Settles O40, for each place where a step can leave `pc`. -/
theorem evenPointerKept : Obligations.EvenPointerKept := by
  intro s t hlen hpc hliteral h
  obtain ⟨hsame, -⟩ := step_sameTape h
  refine ⟨hsame ▸ hlen, ?_⟩
  rcases step_pc_cases h with ⟨hop, ha, x, hx, hjump⟩ | ⟨-, hadvance⟩ | hstay
  · exact hjump ▸ hliteral hop ha x hx
  · omega
  · omega

end Sys2Proof.Machine
end

section
/-! The invariant of a run: every step keeps it, a launch meets it, and it bounds the instruction pointer of
a build (10_state.md R17, R18; 00_scope.md R6). -/

namespace Sys2Proof.Machine

/-- No instruction writes the cells of the tape (20_memory.md R25). -/
theorem Effect.tape_eq {i : Instr} {s t : State} (he : Effect i s t) : t.tape = s.tape := by
  cases he with
  | register r v h => subst h; exact writeReg_tape r v s
  | output v hi h => subst h; rfl
  | jump x hi ha h => subst h; rfl
  | fallThrough x hi ha h => subst h; rfl
  | invalidOperand b hb ho hx h => subst h; rfl

theorem step_tape {s t : State} (h : step s = .next t) : t.tape = s.tape := by
  cases (step_next h).2 with
  | halted hp h => subst h; rfl
  | truncated hp h => subst h; rfl
  | badOpcode hp ho h => subst h; rfl
  | executed i hp hd h => exact (effect_of_exec h).tape_eq

theorem step_keeps_tapeOk {s t : State} (hs : s.tapeOk) (h : step s = .next t) : t.tapeOk := by
  obtain ⟨hlen, -⟩ := step_sameTape h
  unfold State.tapeOk
  rw [step_tape h, hlen]
  exact hs

/-- Past the fetch `pc` is at most `len`, and a literal is at most 255 (40_execution.md R73). -/
theorem step_keeps_pcBound {s t : State} (hs : s.pc ≤ max s.len 255) (h : step s = .next t) :
    t.pc ≤ max t.len 255 := by
  obtain ⟨hlen, -⟩ := step_sameTape h
  rw [hlen]
  rcases step_pc_cases h with ⟨-, -, x, -, hjump⟩ | ⟨hp, hadvance⟩ | hstay
  · exact le_max_of_le_right (hjump ▸ Nat.le_of_lt_succ x.isLt)
  · omega
  · exact hstay ▸ hs

/-- InvalidOperand comes of an operand byte of 7 or more (60_exceptions.md R89). -/
theorem seven_le_operand_of_invalidOperand {s t : State} (h : step s = .next t)
    (ht : t.runState = .faulted) (hcause : t.faultCause = .invalidOperand) :
    7 ≤ ((memRead s (s.pc + 1)).getD 0).toNat := by
  have hpriority := faultPriority s t h _ _ rfl rfl
  split_ifs at hpriority with hpast htail hbad hoperand
  · cases ht.symm.trans hpriority
  · cases hcause.symm.trans hpriority.2
  · cases hcause.symm.trans hpriority.2
  · exact hoperand.2
  · cases ht.symm.trans hpriority

/-- A step into FAULTED writes a record that the cells at `pc` bear out (60_exceptions.md R86 to R91). -/
theorem recordOk_of_step_faulted {s t : State} (h : step s = .next t) (ht : t.runState = .faulted) :
    t.recordOk := by
  have hoperand := seven_le_operand_of_invalidOperand h ht
  obtain ⟨cause, op, rfl, hop, hraise⟩ := takeFault_of_step h ht
  refine ⟨rfl, hop, rfl, ?_⟩
  cases hraise with
  | malformedProgram hp => exact hp
  | invalidOpcode hp ho => exact ⟨hp, ho⟩
  | invalidOperand hp ho =>
    have hx := hoperand rfl
    rw [memRead_of_lt hp] at hx
    exact ⟨hp, ho, _, memRead_of_lt hp, hx⟩

/-- Outside FAULTED the record holds its reset values (10_state.md R18). -/
theorem recordOk_iff_of_ne_faulted {s : State} (h : s.runState ≠ .faulted) :
    s.recordOk ↔
      s.faultCause = .noFault ∧ s.faultIp = 0 ∧ s.faultByte0 = 0 ∧ s.faultByte1 = none := by
  unfold State.recordOk
  split
  next hf => exact absurd hf h
  next => rfl

/-- A step that does not fault leaves the record (60_exceptions.md R91). -/
theorem step_record_of_ne_faulted {s t : State} (h : step s = .next t) (ht : t.runState ≠ .faulted) :
    t.faultCause = s.faultCause ∧ t.faultIp = s.faultIp ∧ t.faultByte0 = s.faultByte0 ∧
      t.faultByte1 = s.faultByte1 := by
  cases (step_next h).2 with
  | halted hp h => subst h; exact ⟨rfl, rfl, rfl, rfl⟩
  | truncated hp h => subst h; exact absurd rfl ht
  | badOpcode hp ho h => subst h; exact absurd rfl ht
  | executed i hp hd h =>
    rcases (effect_of_exec h).takeFault_or_sameStatus with ⟨rfl, -⟩ | ⟨-, hrecord⟩
    · exact absurd rfl ht
    · exact hrecord

theorem step_keeps_recordOk {s t : State} (hs : s.recordOk) (h : step s = .next t) : t.recordOk := by
  by_cases ht : t.runState = .faulted
  · exact recordOk_of_step_faulted h ht
  · obtain ⟨hr, -⟩ := step_next h
    have hreset := (recordOk_iff_of_ne_faulted (by simp [hr])).1 hs
    obtain ⟨hcause, hip, hbyte0, hbyte1⟩ := step_record_of_ne_faulted h ht
    rw [recordOk_iff_of_ne_faulted ht, hcause, hip, hbyte0, hbyte1]
    exact hreset

/-- Settles O41, clause by clause of the invariant. -/
theorem stepKeepsInvariant : Obligations.StepKeepsInvariant := fun _ _ hs h =>
  { tapeOk := step_keeps_tapeOk hs.tapeOk h
    pcBound := step_keeps_pcBound hs.pcBound h
    haltedPastEnd := fun ht => by
      obtain ⟨rfl, hp⟩ := halt_of_step_halted h ht
      exact hp
    recordOk := step_keeps_recordOk hs.recordOk h }

/-- The state of every launch meets the invariant (70_reset_and_hazards.md R101). -/
theorem launched_inv (program : List Byte) (a0 b0 c0 : Word) : (launched program a0 b0 c0).Inv where
  tapeOk := ⟨tapeOf_wf 0 program, fun p hp => by
    obtain ⟨-, hlt⟩ := tapeOf_indices hp
    rwa [Nat.zero_add] at hlt⟩
  pcBound := Nat.zero_le _
  haltedPastEnd := nofun
  recordOk := ⟨rfl, rfl, rfl, rfl⟩

/-- Settles O46: State.reset is what launching the empty program with registers 0 gives. -/
theorem resetMeetsInvariant : Obligations.ResetMeetsInvariant :=
  launched_inv [] 0 0 0

/-- Settles O45: the launch meets its premises, and the empty program halts at once. -/
theorem resetIsAnEmptyLaunch : Obligations.ResetIsAnEmptyLaunch := by
  refine ⟨fun build => ?_, halt State.reset, step_past rfl (Nat.le_refl 0), rfl⟩
  exact launch_of_premises (by decide) (by decide) (by decide) nofun (Nat.zero_le _)

/-- A launch that is accepted met the premises (70_reset_and_hazards.md R102). -/
theorem premises_of_launch {build : Config.Build} {program : List Nat} {a0 b0 c0 : Nat} {s : State}
    (h : launch build program a0 b0 c0 = .next s) :
    a0 < 2 ^ 128 ∧ b0 < 2 ^ 128 ∧ c0 < 2 ^ 128 ∧ (∀ v ∈ program, v < 256) ∧
      program.length ≤ build.progLenMax := by
  unfold launch at h
  split_ifs at h with hregisters hcells hlen
  obtain ⟨ha, hb, hc⟩ := hregisters
  exact ⟨ha, hb, hc, by simpa using hcells, Nat.not_lt.1 hlen⟩

/-- A launch is accepted or refused; it never faults. -/
theorem launch_ne_fault (build : Config.Build) (program : List Nat) (a0 b0 c0 : Nat) (r : Fault) :
    launch build program a0 b0 c0 ≠ .fault r := by
  intro h
  unfold launch at h
  split_ifs at h

/-- Settles O44: an accepted launch met the premises, and no launch faults. -/
theorem launchOutsidePremisesRefused : Obligations.LaunchOutsidePremisesRefused := by
  intro build program a0 b0 c0 houtside
  cases hs : launch build program a0 b0 c0 with
  | refused r => exact ⟨r, rfl⟩
  | fault r => exact (launch_ne_fault _ _ _ _ _ r hs).elim
  | next s =>
    exfalso
    obtain ⟨ha, hb, hc, hcells, hlen⟩ := premises_of_launch hs
    rcases houtside with ha' | hb' | hc' | ⟨v, hv, hv'⟩ | hlen'
    · exact Nat.not_le.2 ha ha'
    · exact Nat.not_le.2 hb hb'
    · exact Nat.not_le.2 hc hc'
    · exact Nat.not_le.2 (hcells v hv) hv'
    · exact Nat.not_lt.2 hlen hlen'

/-- A build that meets R6 has pointer bits for every index up to max(PROG_LEN_MAX, 255). -/
theorem lt_two_pow_ipWidth {build : Config.Build} (h : build.wf = true) :
    max build.progLenMax 255 < 2 ^ build.ipWidth := by
  have hwidth := of_decide_eq_true h
  have hne : max build.progLenMax 255 ≠ 0 := by omega
  rw [Config.bitLength, if_neg hne] at hwidth
  exact Nat.lt_log2_self.trans_le (Nat.pow_le_pow_right (by decide) hwidth)

/-- Settles O47: the run keeps the launch's invariant and its length, which the build accepted. -/
theorem pointerFitsBuild : Obligations.PointerFitsBuild := by
  intro build program a0 b0 c0 s t n hbuild hlaunch hreach
  obtain ⟨-, -, -, -, haccepted⟩ := premises_of_launch hlaunch
  cases launch_next hlaunch
  have hinv : t.Inv := reaches_induction stepKeepsInvariant (launched_inv ..) hreach
  obtain ⟨hlen, -⟩ := tapeIsImmutable _ _ _ hreach
  have hlength : t.len ≤ build.progLenMax := by rwa [hlen, launched, List.length_map]
  have hbound : t.pc ≤ max build.progLenMax 255 := hinv.pcBound.trans (max_le_max_right 255 hlength)
  exact ⟨hinv, hbound.trans_lt (lt_two_pow_ipWidth hbuild)⟩

/-- Settles O49: each of the four views tells the run states apart. -/
theorem hostView : Obligations.HostView := by
  intro s
  refine ⟨fun h => ⟨?_, ?_, ?_, ?_⟩, fun h => ⟨?_, ?_, ?_⟩, fun h => ⟨?_, ?_, ?_, ?_⟩⟩ <;>
    simp only [runResult, faultReport, finalRegisters, outputBeforeFault, h]

end Sys2Proof.Machine
end

section
/-! The refinement of the step block of 40_execution.md R65 (10_state.md R14): the width of the registers
never shows, since no instruction gives a value larger than those it reads. -/

namespace Sys2Proof.Machine

/-- R65 reads a cell below `len` as the number its byte stands for. -/
theorem natCell_of_lt {s : State} {i : Nat} (h : i < s.len) :
    s.natCell i = (tapeByte s.tape i).toNat := by
  rw [State.natCell, memRead_of_lt h, Option.getD_some]

/-- Operand resolution gives the same value with and without a width (30_encoding.md R49). -/
theorem toNatCore_combo (s : State) (x : Byte) :
    s.toNatCore.combo x.toNat = (combo (Combo.ofByte x) s).map BitVec.toNat := by
  obtain ⟨hconstant, hcomboA, hcomboB, hcomboC, hinvalid⟩ := comboTable s x
  unfold NatCore.combo
  split_ifs with h3 h4 h5 h6
  · obtain ⟨v, hv, hvx⟩ := hconstant h3
    rw [hv, Option.map_some, hvx]
  · rw [hcomboA h4]; rfl
  · rw [hcomboB h5]; rfl
  · rw [hcomboC h6]; rfl
  · obtain ⟨hnone, -⟩ := hinvalid (by omega)
    rw [hnone]; rfl

/-- What R65 sees of InvalidOperand on the cells `op` and `x`. -/
def NatCore.invalidOperand (m : NatCore) (op x : Nat) : NatCore :=
  { m with status := .faulted .invalidOperand m.pc op (some x) }

/-- A combo instruction refines R65 where its resolved effect does. -/
theorem withCombo_refines {op x : Byte} {s t : State} {effect : Word → State}
    {natEffect : Nat → NatCore} (heffect : ∀ v, natEffect v.toNat = (effect v).toNatCore)
    (h : withCombo op (Combo.ofByte x) s effect = .next t) :
    ((s.toNatCore.combo x.toNat).map natEffect).getD
      (s.toNatCore.invalidOperand op.toNat x.toNat) = t.toNatCore := by
  rw [toNatCore_combo]
  rcases withCombo_next h with ⟨v, hv, rfl⟩ | ⟨hnone, rfl⟩
  · rw [hv]
    exact heffect v
  · rw [hnone, Combo.toByte_ofByte]
    rfl

/-- Every instruction of the opcode map refines its line of R65, InvalidOperand included. -/
theorem exec_refines {op x : Byte} {i : Instr} {s t : State} (hd : decodePair op x = some i)
    (h : exec i s = .next t) :
    (s.toNatCore.execute op.toNat x.toNat).getD
      (s.toNatCore.invalidOperand op.toNat x.toNat) = t.toNatCore := by
  obtain ⟨rfl, -⟩ := opcode_operand_of_decodePair hd
  cases i with
  | adv y | bdv y | cdv y =>
    cases hd
    exact withCombo_refines (fun v => by simp [State.toNatCore, shiftRight_toNat]) h
  | bst y =>
    cases hd
    exact withCombo_refines
      (fun v => by simp [State.toNatCore, mod8_setWidth_toNat, -BitVec.toNat_setWidth]) h
  | out y =>
    cases hd
    exact withCombo_refines (fun v => by simp [State.toNatCore, mod8_toNat]) h
  | bxl y | bxc y =>
    cases hd
    cases h
    simp [State.toNatCore, NatCore.execute, Instr.opcode]
  | jnz y =>
    cases hd
    by_cases ha : s.a = 0
    · cases (exec_jnz_of_eq_zero ha x).symm.trans h
      simp [State.toNatCore, NatCore.execute, Instr.opcode, ha]
    · have hnat : s.a.toNat ≠ 0 := fun h0 => ha (BitVec.eq_of_toNat_eq h0)
      cases (exec_jnz_of_ne_zero ha x).symm.trans h
      simp [State.toNatCore, NatCore.execute, Instr.opcode, hnat]

/-- A step of the machine is the step of R65 on the same cells. -/
theorem step_refines {s t : State} (h : step s = .next t) :
    s.toNatCore.step s.natCell s.len = some t.toNatCore := by
  obtain ⟨hr, hstep⟩ := step_next h
  have hstatus : s.toNatCore.status = .running := by rw [State.toNatCore, hr]
  have hpc : s.toNatCore.pc = s.pc := rfl
  simp only [NatCore.step, hstatus, hpc]
  cases hstep with
  | halted hp h =>
    rw [if_pos hp, h]
    rfl
  | truncated hp h =>
    rw [if_neg (by omega), if_pos hp, natCell_of_lt (by omega), h]
    rfl
  | badOpcode hp ho h =>
    rw [if_neg (by omega), if_neg (by omega), natCell_of_lt hp, natCell_of_lt (by omega), if_pos ho, h]
    rfl
  | executed i hp hd h =>
    have ho : ¬ 8 ≤ (tapeByte s.tape s.pc).toNat := fun h8 =>
      absurd (hd.symm.trans (decodePair_eq_none_iff.2 h8)) nofun
    rw [if_neg (by omega), if_neg (by omega), natCell_of_lt hp, natCell_of_lt (by omega), if_neg ho,
      ← exec_refines hd h]
    cases s.toNatCore.execute _ _ <;> rfl

/-- Settles O42: each step refines R65's, and outside RUNNING neither takes one. -/
theorem refinesUnboundedPseudocode : Obligations.RefinesUnboundedPseudocode := by
  refine fun s => ⟨fun t => step_refines, fun hno => ?_⟩
  cases hr : s.runState with
  | running =>
    obtain ⟨t, ht⟩ := step_next_of_running hr
    exact absurd ht (hno t)
  | halted | faulted => simp only [NatCore.step, State.toNatCore, hr]

end Sys2Proof.Machine
end

section
/-! Noninterference: no instruction reads the output or the fault record (10_state.md R18, R20). -/

namespace Sys2Proof.Machine

/-- What a run has left behind at some point and never reads: the output and the fault record. -/
structure History where
  out : List Digit
  cause : FaultCause
  ip : Nat
  byte0 : Byte
  byte1 : Option Byte

/-- `s` with another output before it and another record. -/
def State.withHistory (y : History) (s : State) : State :=
  { s with
    out := y.out ++ s.out
    faultCause := y.cause
    faultIp := y.ip
    faultByte0 := y.byte0
    faultByte1 := y.byte1 }

/-- `s` with another output before it and its own record. -/
def State.withOutBefore (o : List Digit) (s : State) : State :=
  { s with out := o ++ s.out }

/-- `u` is `t` after another history: where `t` has taken a fault the record is the new one in both. -/
def AfterHistory (y : History) (t u : State) : Prop :=
  (t.runState ≠ .faulted ∧ u = t.withHistory y) ∨ u = t.withOutBefore y.out

variable {y : History} {s t : State}

theorem combo_withHistory (y : History) (x : Combo) (s : State) :
    combo x (s.withHistory y) = combo x s := by
  cases x with
  | constant k => rfl
  | register r => cases r <;> rfl
  | invalid b => rfl

/-- A fault writes the record anew, whatever stood there (60_exceptions.md R91). -/
theorem takeFault_afterHistory (k : FaultCause) (p : Byte) (q : Option Byte) :
    AfterHistory y (takeFault k p q s) (takeFault k p q (s.withHistory y)) := .inr rfl

/-- A combo instruction does not read the history where its resolved effect does not. -/
theorem withCombo_afterHistory {op : Byte} {x : Combo} {effect effect' : Word → State}
    (heffect : ∀ v, AfterHistory y (effect v) (effect' v)) (h : withCombo op x s effect = .next t) :
    ∃ u, withCombo op x (s.withHistory y) effect' = .next u ∧ AfterHistory y t u := by
  rcases withCombo_next h with ⟨v, hv, rfl⟩ | ⟨hnone, rfl⟩
  · exact ⟨_, withCombo_resolved ((combo_withHistory ..).trans hv) .., heffect v⟩
  · exact ⟨_, withCombo_unresolved ((combo_withHistory ..).trans hnone) .., takeFault_afterHistory ..⟩

section
variable (hr : s.runState ≠ .faulted)
include hr

theorem advance_writeReg_afterHistory (r : Reg) (v : Word) :
    AfterHistory y (advance (writeReg r v s)) (advance (writeReg r v (s.withHistory y))) :=
  .inl ⟨by simpa using hr, by cases r <;> rfl⟩

theorem advance_outAppend_afterHistory (d : Digit) :
    AfterHistory y (advance (outAppend d s)) (advance (outAppend d (s.withHistory y))) :=
  .inl ⟨hr, by simp [advance, outAppend, State.withHistory]⟩

/-- No instruction reads the history, or writes it but to append and to record a fault. -/
theorem exec_afterHistory {i : Instr} (h : exec i s = .next t) :
    ∃ u, exec i (s.withHistory y) = .next u ∧ AfterHistory y t u := by
  cases i with
  | adv x | bst x | bdv x | cdv x =>
    exact withCombo_afterHistory (fun v => advance_writeReg_afterHistory hr ..) h
  | out x => exact withCombo_afterHistory (fun v => advance_outAppend_afterHistory hr _) h
  | bxl x | bxc x =>
    cases h
    exact ⟨_, rfl, advance_writeReg_afterHistory hr ..⟩
  | jnz x =>
    by_cases ha : s.a = 0
    · cases (exec_jnz_of_eq_zero ha x).symm.trans h
      exact ⟨_, exec_jnz_of_eq_zero (s := s.withHistory y) ha x, .inl ⟨hr, rfl⟩⟩
    · cases (exec_jnz_of_ne_zero ha x).symm.trans h
      exact ⟨_, exec_jnz_of_ne_zero (s := s.withHistory y) ha x, .inl ⟨hr, rfl⟩⟩

end

/-- No step reads the history. -/
theorem step_afterHistory (h : step s = .next t) :
    ∃ u, step (s.withHistory y) = .next u ∧ AfterHistory y t u := by
  obtain ⟨hr, hstep⟩ := step_next h
  have hr' : (s.withHistory y).runState = .running := hr
  cases hstep with
  | halted hp h =>
    subst h
    exact ⟨_, step_past hr' hp, .inl ⟨nofun, rfl⟩⟩
  | truncated hp h =>
    subst h
    exact ⟨_, step_tail hr' hp, takeFault_afterHistory ..⟩
  | badOpcode hp ho h =>
    subst h
    exact ⟨_, step_of_decodePair_none hr' (fetchCells_pair hp) (decodePair_eq_none_iff.2 ho),
      takeFault_afterHistory ..⟩
  | executed i hp hd h =>
    rw [step_of_decodePair_some hr' (fetchCells_pair (s := s.withHistory y) hp) hd]
    exact exec_afterHistory (by simp [hr]) h

/-- Settles O36: the history is written before and read by no step, so all else is the same. -/
theorem outputAndRecordAreNotRead : Obligations.OutputAndRecordAreNotRead := by
  intro s t o k ip p q h
  obtain ⟨u, hu, hafter⟩ := step_afterHistory (y := ⟨o, k, ip, p, q⟩) h
  refine ⟨u, hu, ?_⟩
  rcases hafter with ⟨ht, rfl⟩ | rfl
  · exact ⟨rfl, rfl, rfl, rfl, rfl, rfl, rfl, rfl, fun hf => absurd hf ht⟩
  · exact ⟨rfl, rfl, rfl, rfl, rfl, rfl, rfl, rfl, fun _ => ⟨rfl, rfl, rfl, rfl⟩⟩

end Sys2Proof.Machine
end
